-- ==== Sys2Proof/Word.lean ====
section
/-! DEFINITION. The word types of the block's one port: 32-bit words at 14-bit word addresses
(spec/20_memory.md rules R50, R51). -/

namespace Sys2Proof

/-- One 32-bit word: a limb, a control register, a command word (R50, R56, R70). -/
abbrev Word := BitVec 32

/-- A word address `wa` of the port, in `[0, 0x3FFF]` (R50). -/
abbrev WordAddr := BitVec 14

end Sys2Proof
end

