-- ==== Sys2Proof/Config.lean ====
section
/-! DEFINITION. What an implementation fixes: the two open parameters `W` and `NB_MAX`
(spec/00_scope.md rules R6, R7, R9), and the one value the spec leaves free. -/

namespace Sys2Proof

/-- The parameters of a block. They are what the read-only register `CONFIG` shows (R9, R31):
`nl` is the limb count `NL = W/32`, `nbMax` the capacity of the witness-base table. -/
structure Config where
  nl    : Nat
  nbMax : Nat
  deriving DecidableEq, Repr

/-- `W`, the operand width in bits: a multiple of 32 (R6). -/
def Config.width (c : Config) : Nat := 32 * c.nl

/-- The block `State.reset` describes: `W = 32`, `NB_MAX = 16`.
DESIGN CHOICE (unsafe, log entry 1): R6 and R7 leave both open. Every other definition takes the
parameters from the state, so that a statement about all states is about every block. -/
def Config.atReset : Config := { nl := 1, nbMax := 16 }

/-- The word on `rdata` in a cycle that makes no read: "unspecified (any value; no rule reads it)"
(R52, V1). A free value, one for each clock edge (log entry 4). -/
opaque Config.freeRdata : Nat → Word

end Sys2Proof
end

