-- ==== Sys2Proof/Syntax.lean ====
section
/-! DEFINITION. The syntax of everything the block is told: its seven commands, the names of its
registers, the port events and the pins that carry them, and the lines of the host's notation
(spec/30_encoding.md, spec/20_memory.md). -/

namespace Sys2Proof

/-- The seven commands, one constructor for each row of the opcode table (R75). A command word
carries no operand field of any kind (R72), so no constructor has an argument. -/
inductive Instr where
  | mulmod | montmul | modexp | gcd | xgcd | modinv | mrtest
  deriving DecidableEq, Repr

/-- The four units (R1, R5, R70). -/
inductive UnitName where
  | montgomeryMult | modPowBinarySq | extendedGcdEngine | millerRabinTester
  deriving DecidableEq, Repr

/-- Why a word is no command (R74). -/
inductive IllegalWord where
  /-- bits 31:8 are not zero, whatever the rest -/
  | zeroFieldNotZero
  /-- unit number 0 or 5 to 15 -/
  | unitReserved
  /-- a unit number 1 to 4 with a `FUNC` value that unit does not use -/
  | funcUnused
  deriving DecidableEq, Repr

/-- The wide registers, each `W` bits (R21, R22, R23). -/
inductive WideName where
  | opa | opb | opm | res0 | res1 | res2
  | base (i : Nat)
  deriving DecidableEq, Repr

/-- The control registers, each one word (R29). -/
inductive CtrlName where
  | id | config | ctrl | status | cmd | nbases
  deriving DecidableEq, Repr

/-- What a word address stands for (R53, R54). -/
inductive Target where
  | control (r : CtrlName)
  | limb (r : WideName) (j : Nat)
  | reserved
  deriving DecidableEq, Repr

/-- A port event (R52). -/
inductive PortEvent where
  | write (wa : WordAddr) (v : Word)
  | read (wa : WordAddr)
  deriving DecidableEq, Repr

/-- The block's input pins at one rising edge of `clk` (R51). -/
structure Pins where
  rst   : Bool
  sel   : Bool
  we    : Bool
  waddr : WordAddr
  wdata : Word
  deriving DecidableEq, Repr

/-- One rising edge of `clk`: what the host presents, and whether the engine takes its `Complete`
event at this edge if a command is in flight. The spec leaves the delay of `Complete` open and asks
that claims hold for every placement (R41, R192): the placement is this bit, which no rule
constrains. -/
structure Edge where
  pins     : Pins
  complete : Bool
  deriving DecidableEq, Repr

/-- A host variable (R78), by number. -/
abbrev HostVar := Nat

/-- A label of a host program (R79), by number. -/
abbrev HostLabel := Nat

/-- A host expression over host variables (R78, R79), with the operations of R10 and R11.
DESIGN CHOICE (log entry 11): the spec writes such expressions and gives no grammar for them. -/
inductive HostExpr where
  | num (n : Int)
  | var (t : HostVar)
  | add (a b : HostExpr)
  | sub (a b : HostExpr)
  | mul (a b : HostExpr)
  | div (a b : HostExpr)
  | mod (a b : HostExpr)
  /-- `v >> k` -/
  | shiftRight (a : HostExpr) (k : Nat)
  /-- `v[i]` -/
  | bit (a : HostExpr) (i : Nat)
  deriving DecidableEq, Repr

/-- The condition of an `IF` (R79; log entry 11). -/
inductive HostCond where
  | eq (a b : HostExpr)
  | lt (a b : HostExpr)
  | not (c : HostCond)
  deriving DecidableEq, Repr

/-- The lines of the host notation: primitive ones (R78), pseudo-lines, and those that run on the
host alone (R79). A read binds its value to a host variable, or to none. -/
inductive HostLine where
  | wrw (wa v : HostExpr)
  | rdw (wa : HostExpr) (t : Option HostVar)
  | reset
  | wrWide (r : WideName) (v : HostExpr)
  | wrCtrl (r : CtrlName) (v : HostExpr)
  | rdWide (r : WideName) (t : Option HostVar)
  | rdCtrl (r : CtrlName) (t : Option HostVar)
  | command (i : Instr)
  | wait
  | ack (m : HostExpr)
  | set (t : HostVar) (e : HostExpr)
  | label (l : HostLabel)
  | ifGoto (c : HostCond) (l : HostLabel)
  | goto (l : HostLabel)
  | finish
  deriving DecidableEq, Repr

/-- A host program: its lines, run in order by the host (30_encoding.md section 5). -/
abbrev HostProgram := List HostLine

end Sys2Proof
end

