-- ==== Sys2Proof/WellFormed.lean ====
section
/-! DEFINITION. The checks on what is given to the model: the parameters' ranges, the names of
registers that exist, and the host programs that mean something. Every `Instr` is well formed: a
command has no field (R72). -/

namespace Sys2Proof

/-- `32 ≤ W ≤ 4096` in steps of 32, and `7 ≤ NB_MAX ≤ 64` (R6, R7). -/
abbrev Config.Legal (c : Config) : Prop :=
  (1 ≤ c.nl ∧ c.nl ≤ 128) ∧ (7 ≤ c.nbMax ∧ c.nbMax ≤ 64)

/-- The wide register exists in a block with these parameters (R23). -/
abbrev WideName.Exists (c : Config) : WideName → Prop
  | .base i => i < c.nbMax
  | _ => True

/-- `WideName.Exists` as a check that runs. -/
def WideName.present (c : Config) : WideName → Bool
  | .base i => decide (i < c.nbMax)
  | _ => true

/-- The wide register a line names, if it names one. -/
def HostLine.register : HostLine → Option WideName
  | .wrWide r _ => some r
  | .rdWide r _ => some r
  | _ => none

/-- The label a line jumps to, if it jumps (R79). -/
def HostLine.jumpsTo : HostLine → Option HostLabel
  | .ifGoto _ l => some l
  | .goto l => some l
  | _ => none

/-- A host program means something: the registers it names exist, and each label it jumps to stands
at one line. -/
abbrev HostProgram.WellFormed (c : Config) (p : HostProgram) : Prop :=
  (∀ r ∈ p.filterMap HostLine.register, r.present c = true) ∧
  ∀ l ∈ p.filterMap HostLine.jumpsTo, p.count (.label l) = 1

end Sys2Proof
end

