-- ==== Sys2Proof/Decode.lean ====
section
/-! DEFINITION. The command decoder, total on 32-bit words, and the encoder
(spec/30_encoding.md rules R70 to R76). The port carries words and not bytes (R56), so the decoder
reads a word. -/

namespace Sys2Proof

/-- Bits 31:8, `ZERO` (R70). -/
def zeroField (w : Word) : BitVec 24 := w.extractLsb' 8 24

/-- Bits 7:4, `UNIT` (R70). -/
def unitField (w : Word) : BitVec 4 := w.extractLsb' 4 4

/-- Bits 3:0, `FUNC` (R70). -/
def funcField (w : Word) : BitVec 4 := w.extractLsb' 0 4

/-- The unit a `UNIT` value names; 0 and 5 to 15 name none (R70, R74). -/
def unitOfField (u : BitVec 4) : Option UnitName :=
  if u = 1 then some .montgomeryMult
  else if u = 2 then some .modPowBinarySq
  else if u = 3 then some .extendedGcdEngine
  else if u = 4 then some .millerRabinTester
  else none

/-- The command a unit runs for a `FUNC` value, if it uses that value (R75). -/
def commandOfField : UnitName → BitVec 4 → Option Instr
  | .montgomeryMult, f =>
      if f = 0 then some .mulmod else if f = 1 then some .montmul else none
  | .modPowBinarySq, f =>
      if f = 0 then some .modexp else none
  | .extendedGcdEngine, f =>
      if f = 0 then some .gcd else if f = 1 then some .xgcd
      else if f = 2 then some .modinv else none
  | .millerRabinTester, f =>
      if f = 0 then some .mrtest else none

/-- The decoder: a word is a command exactly when `ZERO = 0` and `OPC` is one of the seven values of
R75; every other word is rejected, with the reason (R74, R76). -/
def decode (w : Word) : Except IllegalWord Instr :=
  if zeroField w ≠ 0 then .error .zeroFieldNotZero
  else match unitOfField (unitField w) with
    | none => .error .unitReserved
    | some u => match commandOfField u (funcField w) with
      | none => .error .funcUnused
      | some i => .ok i

/-- A legal command word (R75). -/
def isCommand (w : Word) : Bool :=
  match decode w with
  | .ok _ => true
  | .error _ => false

/-- The unit that owns a command (R75). -/
def Instr.unit : Instr → UnitName
  | .mulmod | .montmul => .montgomeryMult
  | .modexp => .modPowBinarySq
  | .gcd | .xgcd | .modinv => .extendedGcdEngine
  | .mrtest => .millerRabinTester

/-- The unit's number, the value of `UNIT` (R70). -/
def UnitName.code : UnitName → BitVec 4
  | .montgomeryMult => 1
  | .modPowBinarySq => 2
  | .extendedGcdEngine => 3
  | .millerRabinTester => 4

/-- The function's number within its unit, the value of `FUNC` (R75). -/
def Instr.func : Instr → BitVec 4
  | .mulmod | .modexp | .gcd | .mrtest => 0
  | .montmul | .xgcd => 1
  | .modinv => 2

/-- The command word: 24 zero bits, then `OPC` as the unit's number and the function's (R70, R71). -/
def encode (i : Instr) : Word := 0#24 ++ i.unit.code ++ i.func

/-- One row of the opcode map as R75 writes it: the word `v` is the command when
`v & mask = match`. -/
structure OpcodeRow where
  instr   : Instr
  pattern : Word
  mask    : Word
  deriving DecidableEq, Repr

/-- The complete opcode map, transcribed from R75. -/
def opcodeMap : List OpcodeRow :=
  [ ⟨.mulmod,  0x00000010, 0xFFFFFFFF⟩,
    ⟨.montmul, 0x00000011, 0xFFFFFFFF⟩,
    ⟨.modexp,  0x00000020, 0xFFFFFFFF⟩,
    ⟨.gcd,     0x00000030, 0xFFFFFFFF⟩,
    ⟨.xgcd,    0x00000031, 0xFFFFFFFF⟩,
    ⟨.modinv,  0x00000032, 0xFFFFFFFF⟩,
    ⟨.mrtest,  0x00000040, 0xFFFFFFFF⟩ ]

/-- The word `v` is the row's command (R75). -/
abbrev OpcodeRow.Matches (r : OpcodeRow) (v : Word) : Prop := v &&& r.mask = r.pattern

/-- The command word in an instruction given by its bits, numbered as the opcode table numbers them;
every bit from `nbits` up is 0. There is one command length (R70, R73): bits beyond the word make no
command. -/
def tableWord (nbits w : Nat) : Option Word :=
  let v := w % 2 ^ nbits
  if v < 2 ^ 32 then some (BitVec.ofNat 32 v) else none

/-- What the decoder reads from an instruction given by its bits. -/
def decodeTableWord (nbits w : Nat) : Option Instr :=
  match tableWord nbits w with
  | none => none
  | some v => match decode v with
    | .ok i => some i
    | .error _ => none

end Sys2Proof
end

