-- ==== Sys2Proof/Machine/Limbs.lean ====
section
/-! DEFINITION. A wide register as its limbs, least significant first, and the unsigned number it
holds (spec/20_memory.md rule R56). -/

namespace Sys2Proof.Machine

/-- The contents of a wide register: its limbs, limb 0 (the least significant) first (R56). -/
abbrev Limbs := List Word

/-- `v = sum over j of limb_j * 2^(32j)` (R56). -/
def limbsToNat : Limbs → Nat
  | [] => 0
  | w :: ws => w.toNat + 2 ^ 32 * limbsToNat ws

/-- The `n` limbs of a number: limb `j` is the bits `v[32j+31 : 32j]` (R56). -/
def natToLimbs : Nat → Nat → Limbs
  | 0, _ => []
  | n + 1, v => BitVec.ofNat 32 v :: natToLimbs n (v / 2 ^ 32)

/-- The bits `v[32j+31 : 32j]` of a number (R10, R57). -/
def limbOf (v j : Nat) : Word := BitVec.ofNat 32 (v / 2 ^ (32 * j))

end Sys2Proof.Machine
end

