-- ==== Sys2Proof/Machine/State.lean ====
section
/-! DEFINITION. The state, as plain data: the block's own state, which is exactly what
spec/10_state.md rule R20 lists, and beside it what the environment still presents and what it has
read. The state after reset is rule R44's. -/

namespace Sys2Proof.Machine

/-- The error kinds (R151). The block never raises `messageOutOfRange` and `resourceExhausted`,
whose codes are reserved for out-of-scope software (R152). -/
inductive ErrorKind where
  | invalidModulus
  | messageOutOfRange
  | noModularInverse
  | resourceExhausted
  | illegalCommand
  | coefOverflow
  deriving DecidableEq, Repr

/-- `STATUS` (R33), a field for each field of the register and none for its reserved bits (R37).
`busy` is the phase (R25). -/
structure Status where
  busy    : Bool
  done    : Bool
  err     : Bool
  busywr  : Bool
  prime   : Bool
  xneg    : Bool
  yneg    : Bool
  errcode : BitVec 8
  deriving DecidableEq, Repr

/-- `CTRL` (R32): bit 0 `IE_DONE`, bit 1 `IE_ERR`; no bit is stored for the reserved ones (R37). -/
structure Ctrl where
  ieDone : Bool
  ieErr  : Bool
  deriving DecidableEq, Repr

/-- The two phases (R25). The phase is stored once, as `STATUS.BUSY`; `Block.phase` is its view. -/
inductive Phase where
  | idle
  | busy
  deriving DecidableEq, Repr

/-- The complete architectural state (R20), less `ID`, which is a constant (R30). -/
structure Block where
  /-- the contents of `CONFIG`, read only: `NL` and `NB_MAX` (R31) -/
  config  : Config
  /-- operand registers (R21) -/
  opa     : Limbs
  opb     : Limbs
  opm     : Limbs
  /-- result registers (R22) -/
  res0    : Limbs
  res1    : Limbs
  res2    : Limbs
  /-- the witness-base table `BASE[0 .. NB_MAX-1]` (R23) -/
  base    : List Limbs
  /-- bits 7:0 of `NBASES` (R36) -/
  nbases  : BitVec 8
  ctrl    : Ctrl
  status  : Status
  /-- `PENDING`, hidden: the command word in flight (R39) -/
  pending : Word
  deriving DecidableEq, Repr

/-- What a command returns (R38's "writes on success" column): a value for each result register and
result flag the command writes, none for those it leaves. -/
structure Results where
  res0  : Option Nat := none
  res1  : Option Nat := none
  res2  : Option Nat := none
  prime : Option Bool := none
  xneg  : Option Bool := none
  yneg  : Option Bool := none
  deriving DecidableEq, Repr

/-- The machine's state: the block, and the environment at its port.
`edges` are the clock edges still to come, oldest first, each with the host's pins and the engine's
choice to take `Complete` there or not; nothing constrains them (R19, R192).
`reads` are the words the host's reads have returned, oldest first (R52, R78).
`edgeNo` counts the edges so far: the model's own counter, which names the free value on `rdata` in
a cycle without a read (log entry 4). -/
structure State where
  block  : Block
  edges  : List Edge
  reads  : List Word
  edgeNo : Nat
  deriving DecidableEq, Repr

/-- Why a step stops with a fault. -/
inductive Fault where
  /-- Raised by the `Complete` event when `BUSY = 1` and `PENDING` holds no command. No event of the
  spec leaves such a state (accept writes `PENDING` only with a legal word, R40), and the spec gives
  it no behaviour. Safe: the model stops where the hardware is never found. -/
  | pendingNotACommand
  deriving DecidableEq, Repr

/-- Why a step is refused. -/
inductive Refusal where
  /-- Raised by an arm of `exec` whose instruction has no meaning yet; no arm is of that kind. Safe. -/
  | notModelled (mnemonic : String)
  /-- Raised by `step` when `NL` or `NB_MAX` is outside its range: "values outside the stated ranges:
  `refuse`" (R6, R7, V5). Safe. -/
  | parameterOutOfRange
  deriving DecidableEq, Repr

/-- The example list of witness bases, which the table holds after reset (R44). -/
def defaultBases : List Nat := [2, 3, 5, 7, 11, 13, 17]

/-- `STATUS = 0x00000000` (R44). -/
def Status.reset : Status :=
  { busy := false, done := false, err := false, busywr := false, prime := false, xneg := false,
    yneg := false, errcode := 0 }

/-- The reset state of a block with parameters `c` (R44): "no field is left unspecified". -/
def Block.resetFor (c : Config) : Block :=
  { config  := c
    opa     := natToLimbs c.nl 0
    opb     := natToLimbs c.nl 0
    opm     := natToLimbs c.nl 0
    res0    := natToLimbs c.nl 0
    res1    := natToLimbs c.nl 0
    res2    := natToLimbs c.nl 0
    base    := (List.range c.nbMax).map fun i => natToLimbs c.nl (defaultBases.getD i 0)
    nbases  := 7
    ctrl    := { ieDone := false, ieErr := false }
    status  := Status.reset
    pending := 0 }

/-- A block with parameters `c` right after reset, with no edge presented yet. -/
def State.resetFor (c : Config) : State :=
  { block := Block.resetFor c, edges := [], reads := [], edgeNo := 0 }

/-- The machine right after reset (R44, R180), for the parameters of log entry 1. -/
def State.reset : State := State.resetFor Config.atReset

end Sys2Proof.Machine
end

