-- ==== Sys2Proof/Machine/Operands.lean ====
section
/-! DEFINITION. The wide registers by name and the operands a command takes from them
(spec/10_state.md rules R21 to R24, R38; spec/30_encoding.md rule R72). -/

namespace Sys2Proof.Machine

/-- The limbs of a wide register. -/
def Block.wide (b : Block) : WideName → Limbs
  | .opa => b.opa
  | .opb => b.opb
  | .opm => b.opm
  | .res0 => b.res0
  | .res1 => b.res1
  | .res2 => b.res2
  | .base i => b.base.getD i []

/-- The block with other limbs in one wide register. -/
def Block.setWide (b : Block) (r : WideName) (l : Limbs) : Block :=
  match r with
  | .opa => { b with opa := l }
  | .opb => { b with opb := l }
  | .opm => { b with opm := l }
  | .res0 => { b with res0 := l }
  | .res1 => { b with res1 := l }
  | .res2 => { b with res2 := l }
  | .base i => { b with base := b.base.set i l }

/-- The unsigned number a wide register holds (R56). -/
def Block.value (b : Block) (r : WideName) : Nat := limbsToNat (b.wide r)

/-- Operand `OPA`: "nothing is sign-extended" (R72). -/
def Block.opaVal (b : Block) : Nat := limbsToNat b.opa

/-- Operand `OPB` (R72). -/
def Block.opbVal (b : Block) : Nat := limbsToNat b.opb

/-- Operand `OPM` (R72). -/
def Block.opmVal (b : Block) : Nat := limbsToNat b.opm

/-- `BASE[0 .. NBASES-1]`, the bases MRTEST uses, in index order (R23). -/
def Block.activeBases (b : Block) : List Nat := (b.base.take b.nbases.toNat).map limbsToNat

/-- A coefficient held as a sign and a magnitude: `(1 - 2*neg) * mag` (R24). -/
def signedValue (neg : Bool) (mag : Nat) : Int := if neg then -(mag : Int) else (mag : Int)

/-- The Bézout coefficient `x` in `RES1` and `XNEG` (R24). -/
def Block.coefX (b : Block) : Int := signedValue b.status.xneg (limbsToNat b.res1)

/-- The Bézout coefficient `y` in `RES2` and `YNEG` (R24). -/
def Block.coefY (b : Block) : Int := signedValue b.status.yneg (limbsToNat b.res2)

end Sys2Proof.Machine
end

