-- ==== Sys2Proof/Machine/Flags.lean ====
section
/-! DEFINITION. `STATUS` and `CTRL`: their layouts, every way they are written, the error codes and
the interrupt line (spec/10_state.md rules R26 to R34; spec/60_exceptions.md rules R151, R155,
R157, R158, R160). -/

namespace Sys2Proof.Machine

/-- The value of `ERRCODE` for an error kind (R151). -/
def ErrorKind.code : ErrorKind → BitVec 8
  | .invalidModulus => 1
  | .messageOutOfRange => 2
  | .noModularInverse => 3
  | .resourceExhausted => 4
  | .illegalCommand => 5
  | .coefOverflow => 6

/-- What a read of `STATUS` returns: `ERRCODE` in bits 15:8, `YNEG` down to `BUSY` in bits 6:0, and
0 in the reserved bits 31:16 and 7 (R33). -/
def Status.toWord (t : Status) : Word :=
  0#16 ++ t.errcode ++ 0#1 ++ BitVec.ofBool t.yneg ++ BitVec.ofBool t.xneg ++ BitVec.ofBool t.prime
    ++ BitVec.ofBool t.busywr ++ BitVec.ofBool t.err ++ BitVec.ofBool t.done ++ BitVec.ofBool t.busy

/-- A host write to `STATUS` in phase IDLE: write one to clear `DONE`, `ERR` with `ERRCODE`, and
`BUSYWR`; "no bit can be set by a host write" (R34). -/
def Status.writeOneToClear (v : Word) (t : Status) : Status :=
  { t with
    done    := t.done && !v.getLsbD 1
    err     := t.err && !v.getLsbD 2
    errcode := if v.getLsbD 2 then 0 else t.errcode
    busywr  := t.busywr && !v.getLsbD 3 }

/-- The flags at accept of a legal command word (R40). -/
def Status.accept (t : Status) : Status :=
  { t with busy := true, done := false, err := false, errcode := 0 }

/-- The flags at the write of an illegal command word (R155). -/
def Status.illegalCommand (t : Status) : Status :=
  { t with err := true, errcode := ErrorKind.illegalCommand.code, done := false }

/-- The flags at the `Complete` of a command that succeeded (R41). -/
def Status.succeed (t : Status) : Status := { t with done := true, busy := false }

/-- The flags at the `Complete` of a command that raised an error (R41, R157). -/
def Status.fail (k : ErrorKind) (t : Status) : Status :=
  { t with err := true, errcode := k.code, busy := false }

/-- What a read of `CTRL` returns: the two enables, and 0 in bits 31:2 (R32). -/
def Ctrl.toWord (c : Ctrl) : Word := 0#30 ++ BitVec.ofBool c.ieErr ++ BitVec.ofBool c.ieDone

/-- What a write leaves in `CTRL`: bits 1:0; the rest of the written word is ignored (R32). -/
def Ctrl.ofWord (v : Word) : Ctrl := { ieDone := v.getLsbD 0, ieErr := v.getLsbD 1 }

/-- The phase (R25). -/
def Block.phase (b : Block) : Phase := if b.status.busy then .busy else .idle

/-- The interrupt output, a level and a function of the state (R160). -/
def Block.irq (b : Block) : Bool :=
  (b.status.done && b.ctrl.ieDone) || (b.status.err && b.ctrl.ieErr)

end Sys2Proof.Machine
end

