-- ==== Sys2Proof/Machine/Ops.lean ====
section
/-! DEFINITION. The operations the events share: accept, the commit of results, raising an error and
the acknowledgement that undoes its report, the `Complete` of a command, and reset
(spec/10_state.md rules R40, R41; spec/60_exceptions.md rules R155 to R158;
spec/70_reset_and_hazards.md rules R180, R181). -/

namespace Sys2Proof.Machine

/-- Accept of the legal command word `v` (R40): the word goes to `PENDING`, the phase to BUSY, and
`DONE`, `ERR`, `ERRCODE` are cleared; nothing else changes. -/
def Block.accept (v : Word) (b : Block) : Block :=
  { b with pending := v, status := b.status.accept }

/-- The write of an illegal command word (R155): the error is recorded at once; no command starts and
`PENDING` is not written. -/
def Block.rejectCommand (b : Block) : Block := { b with status := b.status.illegalCommand }

/-- A result register after a commit: the value's `NL` limbs if the command wrote one, else as before
(R38, R22). -/
def storeResult (nl : Nat) (v : Option Nat) (old : Limbs) : Limbs :=
  match v with
  | some n => natToLimbs nl n
  | none => old

/-- The commit of a successful command (R41): every register and flag the command writes, and
`DONE <- 1`, `BUSY <- 0`, all in this one event. -/
def Block.commit (r : Results) (b : Block) : Block :=
  { b with
    res0 := storeResult b.config.nl r.res0 b.res0
    res1 := storeResult b.config.nl r.res1 b.res1
    res2 := storeResult b.config.nl r.res2 b.res2
    status :=
      { b.status.succeed with
        prime := r.prime.getD b.status.prime
        xneg  := r.xneg.getD b.status.xneg
        yneg  := r.yneg.getD b.status.yneg } }

/-- Taking an error, the block's only exception (R157): `ERR`, `ERRCODE` and `BUSY` are written and
nothing else. "Nothing is saved, because nothing is lost": there is no mode, no vector and no
handler address. -/
def Block.raise (k : ErrorKind) (b : Block) : Block := { b with status := b.status.fail k }

/-- The return from an error, the host's acknowledgement `PortWrite(STATUS, 0x4)` in phase IDLE
(R158): `ERR` and `ERRCODE` are cleared and nothing else. The other way back is the next accept. -/
def Block.acknowledge (b : Block) : Block :=
  { b with status := b.status.writeOneToClear 0x4 }

/-- The `Complete` event of a command whose function returned `r` (R41). -/
def Block.complete (r : Except ErrorKind Results) (b : Block) : Block :=
  match r with
  | .ok w => b.commit w
  | .error k => b.raise k

/-- `Complete` on the machine: only the block changes. -/
def State.complete (r : Except ErrorKind Results) (s : State) : State :=
  { s with block := s.block.complete r }

/-- An edge with `rst = 1` (R180, R181): the whole state takes its reset values, whatever it was; a
command in flight is abandoned. The parameters are the hardware's and stay (R31); what the host has
read and what it still presents are the environment's. -/
def State.applyReset (s : State) : State :=
  { s with block := Block.resetFor s.block.config }

end Sys2Proof.Machine
end

