-- ==== Sys2Proof/Machine/ModPow.lean ====
section
/-! DEFINITION. The multiply-then-reduce step (spec/40_montgomery_mult.md rule R90) and the unit
`mod_pow_binary_sq`: command MODEXP (spec/41_mod_pow_binary_sq.md). -/

namespace Sys2Proof.Machine

/-- `ModMul(a, b, m) = (a * b) mod m`, the exact product reduced once (R90, R12). -/
def modMul (a b m : Nat) : Nat := (a * b) % m

/-- `bitlen(v)`: 0 for `v = 0`, otherwise the least `k` with `v < 2^k` (R10). -/
def bitlen (v : Nat) : Nat := if v = 0 then 0 else Nat.log2 v + 1

/-- The loop of R100-code, within an iteration in the source's order: test the low bit and multiply,
then square, then halve. `fuel` bounds the iterations. -/
def modPowLoop : (fuel result base exponent modulus : Nat) → Nat
  | 0, result, _, _, _ => result
  | fuel + 1, result, base, exponent, modulus =>
    if exponent = 0 then result
    else
      let result' := if exponent % 2 = 1 then modMul result base modulus else result
      modPowLoop fuel result' (modMul base base modulus) (exponent / 2) modulus

/-- `ModPow(base, exponent, modulus)` for `modulus ≥ 2` (R100). The loop runs exactly
`bitlen(exponent)` times (R102), which is the fuel. -/
def modPow (base exponent modulus : Nat) : Nat :=
  modPowLoop (bitlen exponent) 1 (base % modulus) exponent modulus

/-- R101-code. -/
def modexpResults (b : Block) : Except ErrorKind Results :=
  if b.opmVal ≤ 1 then .error .invalidModulus
  else .ok { res0 := some (modPow b.opaVal b.opbVal b.opmVal) }

/-- Command MODEXP (R101). -/
def execModexp (s : State) : Host.Outcome State Fault Refusal :=
  .next (s.complete (modexpResults s.block))

end Sys2Proof.Machine
end

