-- ==== Sys2Proof/Machine/ExtGcd.lean ====
section
/-! DEFINITION. The unit `extended_gcd_engine`: commands GCD, XGCD and MODINV
(spec/42_extended_gcd_engine.md). -/

namespace Sys2Proof.Machine

/-- The loop of R110-code. `b` falls at every iteration, so that `b` iterations are enough. -/
def gcdLoop : (fuel a b : Nat) → Nat
  | 0, a, _ => a
  | fuel + 1, a, b => if b = 0 then a else gcdLoop fuel b (a % b)

/-- `Gcd(a, b)` (R110). -/
def gcd (a b : Nat) : Nat := gcdLoop b a b

/-- The working variables of `ExtGcd` (R112). The remainders are never negative (R113 (b)); the
coefficients are signed mathematical integers. -/
structure ExtState where
  oldR : Nat
  r    : Nat
  oldX : Int
  x    : Int
  oldY : Int
  y    : Int
  deriving DecidableEq, Repr

/-- The start of R112-code. -/
def ExtState.init (a b : Nat) : ExtState :=
  { oldR := a, r := b, oldX := 1, x := 0, oldY := 0, y := 1 }

/-- One iteration of R112-code, all three pairs updated by the running quotient. -/
def ExtState.iterate (t : ExtState) : ExtState :=
  let q := t.oldR / t.r
  { oldR := t.r, r := t.oldR - q * t.r
    oldX := t.x, x := t.oldX - q * t.x
    oldY := t.y, y := t.oldY - q * t.y }

/-- The loop of R112-code: `r` falls at every iteration, so that as many as its first value are
enough. -/
def extGcdLoop : (fuel : Nat) → ExtState → ExtState
  | 0, t => t
  | fuel + 1, t => if t.r = 0 then t else extGcdLoop fuel t.iterate

/-- What `ExtGcd` returns: `(g, x, y)` (R112). -/
structure Bezout where
  g : Nat
  x : Int
  y : Int
  deriving DecidableEq, Repr

/-- `ExtGcd(a, b)` (R112). -/
def extGcd (a b : Nat) : Bezout :=
  let t := extGcdLoop b (ExtState.init a b)
  { g := t.oldR, x := t.oldX, y := t.oldY }

/-- The pseudocode of R111: the command cannot fail. -/
def gcdResults (b : Block) : Except ErrorKind Results :=
  .ok { res0 := some (gcd b.opaVal b.opbVal) }

/-- Command GCD (R111). -/
def execGcd (s : State) : Host.Outcome State Fault Refusal :=
  .next (s.complete (gcdResults s.block))

/-- R114-code: magnitudes and signs, a zero coefficient with sign 0 (R24); the guard of R118 before
anything is stored. -/
def xgcdResults (b : Block) : Except ErrorKind Results :=
  let e := extGcd b.opaVal b.opbVal
  if 2 ^ b.config.width ≤ e.x.natAbs ∨ 2 ^ b.config.width ≤ e.y.natAbs then .error .coefOverflow
  else .ok
    { res0 := some e.g
      res1 := some e.x.natAbs, xneg := some (decide (e.x < 0))
      res2 := some e.y.natAbs, yneg := some (decide (e.y < 0)) }

/-- Command XGCD (R114). -/
def execXgcd (s : State) : Host.Outcome State Fault Refusal :=
  .next (s.complete (xgcdResults s.block))

/-- R116-code, the checks in its order (R156). `x mod b` is the floor remainder (R11). -/
def modinvResults (b : Block) : Except ErrorKind Results :=
  if b.opbVal = 0 then .error .invalidModulus
  else
    let e := extGcd b.opaVal b.opbVal
    if e.g ≠ 1 then .error .noModularInverse
    else .ok { res0 := some (e.x % (b.opbVal : Int)).toNat }

/-- Command MODINV (R116). -/
def execModinv (s : State) : Host.Outcome State Fault Refusal :=
  .next (s.complete (modinvResults s.block))

end Sys2Proof.Machine
end

