-- ==== Sys2Proof/Machine/MillerRabin.lean ====
section
/-! DEFINITION. The unit `miller_rabin_tester`: command MRTEST
(spec/43_miller_rabin_tester.md). -/

namespace Sys2Proof.Machine

/-- The decomposition loop of R130-code: halve `d` while it is even, counting in `s` (R132). -/
def decomposeLoop : (fuel d s : Nat) → Nat × Nat
  | 0, d, s => (d, s)
  | fuel + 1, d, s => if d % 2 = 0 then decomposeLoop fuel (d / 2) (s + 1) else (d, s)

/-- `(d, s)` with `m = 2^s * d` and `d` odd, for `m > 0` (R132): fewer halvings than `m` has bits. -/
def decompose (m : Nat) : Nat × Nat := decomposeLoop (bitlen m) m 0

/-- The inner loop for one base: square up to `times` times; true at the first square that is
`n - 1`. It does not stop early at 1 (R133). -/
def squareLoop : (times x n : Nat) → Bool
  | 0, _, _ => false
  | times + 1, x, n =>
    let x' := modPow x 2 n
    if x' = n - 1 then true else squareLoop times x' n

/-- One base below `n` passes (R133). -/
def basePasses (n d s a : Nat) : Bool :=
  let x := modPow a d n
  if x = 1 ∨ x = n - 1 then true else squareLoop (s - 1) x n

/-- The loop over the bases, in index order: a base at or above `n` is skipped, and the first base
that fails ends it (R133). -/
def basesLoop (n d s : Nat) : List Nat → Bool
  | [] => true
  | a :: rest =>
    if n ≤ a then basesLoop n d s rest
    else if basePasses n d s a then basesLoop n d s rest
    else false

/-- `MillerRabin(n, k, bases)` with `bases` the list of the `k` active ones (R130); the trivial
cases first, in the source's order (R131). -/
def millerRabin (n : Nat) (bases : List Nat) : Bool :=
  if n < 2 then false
  else if n = 2 ∨ n = 3 then true
  else if n % 2 = 0 then false
  else
    let (d, s) := decompose (n - 1)
    basesLoop n d s bases

/-- The pseudocode of R134: the flag `PRIME` and no register; the command cannot fail. -/
def mrtestResults (b : Block) : Except ErrorKind Results :=
  .ok { prime := some (millerRabin b.opaVal b.activeBases) }

/-- Command MRTEST (R134). -/
def execMrtest (s : State) : Host.Outcome State Fault Refusal :=
  .next (s.complete (mrtestResults s.block))

end Sys2Proof.Machine
end

