-- ==== Sys2Proof/Machine/Montgomery.lean ====
section
/-! DEFINITION. The unit `montgomery_mult`: commands MULMOD and MONTMUL
(spec/40_montgomery_mult.md). -/

namespace Sys2Proof.Machine

/-- `RINV(m)`: the integer in `[1, m)` with `(RINV(m) * 2^w) mod m = 1`, for odd `m ≥ 3` (R92). The
rule defines it by value only; here it is the coefficient of `2^w` in `ExtGcd(2^w, m)`, reduced
modulo `m` (log entry 8). -/
def rinv (w m : Nat) : Nat := ((extGcd (2 ^ w) m).x % (m : Int)).toNat

/-- `MontMul(a, b, m) = (a * b * RINV(m)) mod m` with `R_MONT = 2^w` (R8, R92). -/
def montMul (w a b m : Nat) : Nat := (a * b * rinv w m) % m

/-- R91-code. -/
def mulmodResults (b : Block) : Except ErrorKind Results :=
  if b.opmVal ≤ 1 then .error .invalidModulus
  else .ok { res0 := some (modMul b.opaVal b.opbVal b.opmVal) }

/-- Command MULMOD (R91). -/
def execMulmod (s : State) : Host.Outcome State Fault Refusal :=
  .next (s.complete (mulmodResults s.block))

/-- R93-code: one check with one code (R156). -/
def montmulResults (b : Block) : Except ErrorKind Results :=
  if b.opmVal ≤ 1 ∨ b.opmVal % 2 = 0 then .error .invalidModulus
  else .ok { res0 := some (montMul b.config.width b.opaVal b.opbVal b.opmVal) }

/-- Command MONTMUL (R93). -/
def execMontmul (s : State) : Host.Outcome State Fault Refusal :=
  .next (s.complete (montmulResults s.block))

end Sys2Proof.Machine
end

