-- ==== Sys2Proof/Machine/Dispatch.lean ====
section
/-! DEFINITION. `exec`: the `Complete` event of the command in flight, one arm for each command.
`Complete` computes the command's function and commits its results or raises its error
(spec/10_state.md rule R41). -/

namespace Sys2Proof.Machine

def exec (i : Instr) (s : State) : Host.Outcome State Fault Refusal :=
  match i with
  -- montgomery_mult
  | .mulmod => Sys2Proof.Machine.execMulmod s
  | .montmul => Sys2Proof.Machine.execMontmul s
  -- mod_pow_binary_sq
  | .modexp => Sys2Proof.Machine.execModexp s
  -- extended_gcd_engine
  | .gcd => Sys2Proof.Machine.execGcd s
  | .xgcd => Sys2Proof.Machine.execXgcd s
  | .modinv => Sys2Proof.Machine.execModinv s
  -- miller_rabin_tester
  | .mrtest => Sys2Proof.Machine.execMrtest s

end Sys2Proof.Machine
end

