-- ==== Sys2Proof/Machine/Port.lean ====
section
/-! DEFINITION. The host port: pins and events, the address map, and what a read and a write do
(spec/20_memory.md; spec/10_state.md rules R29 to R37). -/

namespace Sys2Proof

/-- The port event of a cycle, if it makes one: `rst = 0` and `sel = 1`; `we` tells a write from a
read (R52). -/
def Pins.event (p : Pins) : Option PortEvent :=
  if p.rst then none
  else if p.sel then
    if p.we then some (.write p.waddr p.wdata) else some (.read p.waddr)
  else none

/-- The number of a wide register, which places its window (R54). -/
def WideName.number : WideName → Nat
  | .opa => 0
  | .opb => 1
  | .opm => 2
  | .res0 => 3
  | .res1 => 4
  | .res2 => 5
  | .base i => 16 + i

/-- The host may write the register: an operand or a base-table entry, not a result (R21 to R23). -/
def WideName.writable : WideName → Bool
  | .res0 | .res1 | .res2 => false
  | _ => true

end Sys2Proof

namespace Sys2Proof.Machine

/-- The word address of a control register (R53). -/
def ctrlAddr : CtrlName → WordAddr
  | .id => 0x0000
  | .config => 0x0001
  | .ctrl => 0x0002
  | .status => 0x0003
  | .cmd => 0x0004
  | .nbases => 0x0005

/-- The word address of a limb: `0x0400 + 0x80*r + j` (R53, R54). -/
def limbAddr (r : WideName) (j : Nat) : WordAddr :=
  BitVec.ofNat 14 (0x0400 + 0x80 * r.number + j)

/-- The wide register with a number, in a block with these parameters; 6 to 15 and those past the
table are reserved (R53, R54). -/
def wideOfNumber (c : Config) (r : Nat) : Option WideName :=
  match r with
  | 0 => some .opa
  | 1 => some .opb
  | 2 => some .opm
  | 3 => some .res0
  | 4 => some .res1
  | 5 => some .res2
  | _ => if 16 ≤ r ∧ r - 16 < c.nbMax then some (.base (r - 16)) else none

/-- The register window at an offset from `0x0400`: windows of 128 words, of which the first `NL`
hold limbs (R54). -/
def windowTarget (c : Config) (k : Nat) : Target :=
  match wideOfNumber c (k / 0x80) with
  | some r => if k % 0x80 < c.nl then .limb r (k % 0x80) else .reserved
  | none => .reserved

/-- The address map (R53): what a word address stands for. -/
def target (c : Config) (wa : WordAddr) : Target :=
  match wa.toNat with
  | 0 => .control .id
  | 1 => .control .config
  | 2 => .control .ctrl
  | 3 => .control .status
  | 4 => .control .cmd
  | 5 => .control .nbases
  | n => if 0x0400 ≤ n then windowTarget c (n - 0x0400) else .reserved

/-- `ID`, a constant: the ASCII bytes "RSA1" (R30). -/
def idWord : Word := 0x52534131

/-- What a read of `CONFIG` returns: `NL` in bits 7:0, `NB_MAX` in bits 15:8, 0 above (R31). -/
def configWord (c : Config) : Word := 0#16 ++ BitVec.ofNat 8 c.nbMax ++ BitVec.ofNat 8 c.nl

/-- What a read of a control register returns; `CMD` reads 0 (R30 to R36). -/
def Block.readCtrl (b : Block) : CtrlName → Word
  | .id => idWord
  | .config => configWord b.config
  | .ctrl => b.ctrl.toWord
  | .status => b.status.toWord
  | .cmd => 0
  | .nbases => 0#24 ++ b.nbases

/-- `PortRead(wa)`: the word, and no effect (R62); a reserved address reads 0 (R59). -/
def Block.portRead (b : Block) (wa : WordAddr) : Word :=
  match target b.config wa with
  | .control r => b.readCtrl r
  | .limb r j => (b.wide r).getD j 0
  | .reserved => 0

/-- A write to `CMD` in phase IDLE: accept, or IllegalCommand (R40, R155). -/
def Block.writeCmd (v : Word) (b : Block) : Block :=
  match decode v with
  | .ok _ => b.accept v
  | .error _ => b.rejectCommand

/-- What `NBASES` holds after a write: `min(v[7:0], NB_MAX)` (R36). -/
def clampBases (c : Config) (v : Word) : BitVec 8 :=
  BitVec.ofNat 8 (min (v.toNat % 256) c.nbMax)

/-- A write to a control register in phase IDLE; `ID` and `CONFIG` are read only (R32 to R36, R60). -/
def Block.writeCtrl (r : CtrlName) (v : Word) (b : Block) : Block :=
  match r with
  | .id => b
  | .config => b
  | .ctrl => { b with ctrl := Ctrl.ofWord v }
  | .status => { b with status := b.status.writeOneToClear v }
  | .cmd => b.writeCmd v
  | .nbases => { b with nbases := clampBases b.config v }

/-- A write to one limb in phase IDLE: "a limb write changes that limb and nothing else" (R57); a
result register is read only (R60). -/
def Block.writeLimb (r : WideName) (j : Nat) (v : Word) (b : Block) : Block :=
  if r.writable then b.setWide r ((b.wide r).set j v) else b

/-- `PortWrite(wa, v)`: discarded with `BUSYWR <- 1` while a command is in flight (R61); otherwise
the addressed register's write; a reserved address takes nothing (R59). -/
def Block.portWrite (b : Block) (wa : WordAddr) (v : Word) : Block :=
  if b.status.busy then { b with status := { b.status with busywr := true } }
  else match target b.config wa with
    | .control r => b.writeCtrl r v
    | .limb r j => b.writeLimb r j v
    | .reserved => b

/-- The output `rdata` in a cycle with these pins: the word read in a read cycle, and a free value in
every other (R51, R52, V1). -/
def State.rdata (s : State) (p : Pins) : Word :=
  match p.event with
  | some (.read wa) => s.block.portRead wa
  | _ => Config.freeRdata s.edgeNo

/-- The port event of a cycle, on the machine. -/
def State.portCycle (p : Pins) (s : State) : State :=
  match p.event with
  | some (.write wa v) => { s with block := s.block.portWrite wa v }
  | some (.read _) => { s with reads := s.reads ++ [s.rdata p] }
  | none => s

end Sys2Proof.Machine
end

