-- ==== Sys2Proof/Machine/HostLines.lean ====
section
/-! DEFINITION. The host and its notation: `RegWrite` and `RegRead` (spec/20_memory.md rule R57),
expressions, and what each line presents at the port and does with the word it reads
(spec/30_encoding.md rules R78, R79). -/

namespace Sys2Proof

/-- The pins of a cycle that makes a port event (R51, R52). -/
def PortEvent.pins : PortEvent → Pins
  | .write wa v => { rst := false, sel := true, we := true, waddr := wa, wdata := v }
  | .read wa => { rst := false, sel := true, we := false, waddr := wa, wdata := 0 }

end Sys2Proof

namespace Sys2Proof.Machine

/-- A cycle with `rst = 1`, the line `RESET` (R78). -/
def resetPins : Pins := { rst := true, sel := false, we := false, waddr := 0, wdata := 0 }

/-- A cycle in which the host makes no access (R52). -/
def quietPins : Pins := { rst := false, sel := false, we := false, waddr := 0, wdata := 0 }

/-- `RegWrite(name, v)` of a wide register: `NL` writes, one for each limb (R57). A `BASE[i]` with
`i ≥ NB_MAX` is no register (R23) and R14 and R57 give it no access: no line makes the events of this
list for one (DESIGN CHOICE, log entry 13). -/
def regWrite (c : Config) (r : WideName) (v : Nat) : List PortEvent :=
  (List.range c.nl).map fun j => .write (limbAddr r j) (limbOf v j)

/-- `RegRead(name)` of a wide register: `NL` reads (R57); for a name that is no register, as
`regWrite`. -/
def regRead (c : Config) (r : WideName) : List PortEvent :=
  (List.range c.nl).map fun j => .read (limbAddr r j)

/-- One port event on the block alone: a write changes it, a read does not (R62). -/
def Block.apply (b : Block) : PortEvent → Block
  | .write wa v => b.portWrite wa v
  | .read _ => b

/-- Port events one after another, each seeing what those before it left (R64). -/
def Block.applyAll (b : Block) (es : List PortEvent) : Block := es.foldl Block.apply b

/-- The host's variables, each with its value, a mathematical integer (R10). -/
abbrev HostEnv := List (HostVar × Int)

/-- The host, running a program. `part` counts the events done of the line at `line`, and `acc` is the
number an `RD` has read so far. -/
structure HostState where
  line : Nat
  part : Nat
  acc  : Nat
  env  : HostEnv
  deriving DecidableEq, Repr

/-- The host at the first line of a program, with its inputs. -/
def HostState.start (env : HostEnv) : HostState := { line := 0, part := 0, acc := 0, env := env }

/-- At the start of a line. -/
def HostState.goLine (h : HostState) (n : Nat) : HostState := { h with line := n, part := 0, acc := 0 }

/-- On to the next line (R79: "run in order"). -/
def HostState.next (h : HostState) : HostState := h.goLine (h.line + 1)

/-- A variable takes a value. -/
def HostState.bind (t : Option HostVar) (v : Int) (h : HostState) : HostState :=
  match t with
  | some t => { h with env := (t, v) :: h.env.filter fun x => x.1 ≠ t }
  | none => h

end Sys2Proof.Machine

namespace Sys2Proof
open Machine

/-- The value of an expression, by R10 and R11. None where a variable has no value or R10 and R11 give
none: a divisor below 1, a shift or a bit of a negative number. -/
def HostExpr.eval (env : HostEnv) : HostExpr → Option Int
  | .num n => some n
  | .var t => env.lookup t
  | .add a b => (a.eval env).bind fun x => (b.eval env).map fun y => x + y
  | .sub a b => (a.eval env).bind fun x => (b.eval env).map fun y => x - y
  | .mul a b => (a.eval env).bind fun x => (b.eval env).map fun y => x * y
  | .div a b => (a.eval env).bind fun x => (b.eval env).bind fun y =>
      if 0 < y then some (x / y) else none
  | .mod a b => (a.eval env).bind fun x => (b.eval env).bind fun y =>
      if 0 < y then some (x % y) else none
  | .shiftRight a k => (a.eval env).bind fun x => if 0 ≤ x then some (x / 2 ^ k) else none
  | .bit a i => (a.eval env).bind fun x => if 0 ≤ x then some (x / 2 ^ i % 2) else none

/-- The value as an unsigned number of `k` bits, if it is one. -/
def HostExpr.unsigned (env : HostEnv) (k : Nat) (e : HostExpr) : Option Nat :=
  (e.eval env).bind fun x => if 0 ≤ x ∧ x < 2 ^ k then some x.toNat else none

/-- The truth of a condition, where its expressions have values. -/
def HostCond.eval (env : HostEnv) : HostCond → Option Bool
  | .eq a b => (a.eval env).bind fun x => (b.eval env).map fun y => decide (x = y)
  | .lt a b => (a.eval env).bind fun x => (b.eval env).map fun y => decide (x < y)
  | .not c => (c.eval env).map Bool.not

/-- The port event a line makes now (R78, R79): of a `WR` or an `RD` of a wide register the one of the
limb whose turn it is, of a `WAIT` a poll of `STATUS`. None for a line that causes none, and for one
whose address or value is not an address or a value.
DESIGN CHOICE (log entry 13): none for a `WR` or an `RD` of `BASE[i]` with `i ≥ NB_MAX`, which is no
register; the spec does not say what such a line does. -/
def HostLine.event (c : Config) (h : HostState) : HostLine → Option PortEvent
  | .wrw wa v => (wa.unsigned h.env 14).bind fun a => (v.unsigned h.env 32).map fun w =>
      .write (BitVec.ofNat 14 a) (BitVec.ofNat 32 w)
  | .rdw wa _ => (wa.unsigned h.env 14).map fun a => .read (BitVec.ofNat 14 a)
  | .wrWide r v =>
    if r.present c then
      (v.unsigned h.env c.width).map fun n => .write (limbAddr r h.part) (limbOf n h.part)
    else none
  | .wrCtrl r v => (v.unsigned h.env 32).map fun w => .write (ctrlAddr r) (BitVec.ofNat 32 w)
  | .rdWide r _ => if r.present c then some (.read (limbAddr r h.part)) else none
  | .rdCtrl r _ => some (.read (ctrlAddr r))
  | .command i => some (.write (ctrlAddr .cmd) (encode i))
  | .wait => some (.read (ctrlAddr .status))
  | .ack m => (m.unsigned h.env 32).map fun w => .write (ctrlAddr .status) (BitVec.ofNat 32 w)
  | .reset | .set _ _ | .label _ | .ifGoto _ _ | .goto _ | .finish => none

/-- What the host's pins carry while it is at a line (R51, R52, R78). -/
def HostLine.pins (c : Config) (h : HostState) (line : HostLine) : Pins :=
  match line with
  | .reset => resetPins
  | _ => match line.event c h with
    | some e => e.pins
    | none => quietPins

end Sys2Proof

namespace Sys2Proof.Machine

/-- The host at the line of a label: the first, if there are several, and where it is, if there is
none (DESIGN CHOICE, log entry 11). -/
def HostState.jump (p : HostProgram) (l : HostLabel) (h : HostState) : HostState :=
  if .label l ∈ p then h.goLine (p.findIdx fun line => line = .label l) else h

/-- A limb of a wide register has been transferred: the next one's turn, or the next line's with the
variable bound to the whole number (R57, R79). -/
def HostState.limbDone (c : Config) (t : Option HostVar) (w : Word) (h : HostState) : HostState :=
  let acc := h.acc + w.toNat * 2 ^ (32 * h.part)
  if h.part + 1 < c.nl then { h with part := h.part + 1, acc := acc }
  else (h.bind t acc).next

end Sys2Proof.Machine

namespace Sys2Proof
open Machine

/-- The host after its cycle at a line, in which it has read `w`, if the line reads. A `WAIT` is
`L: RDW 0x0003 -> t ; IF t[0] = 1 GOTO L`: it is left when the word read has bit 0 clear, and polled
again else (R79); that it binds no variable of the program and that its test takes no edge of its own
is a DESIGN CHOICE (log entry 11). A line that has no event or value for want of an address, a value,
a register or a label keeps the host where it is (log entries 11 and 13). -/
def HostLine.after (c : Config) (p : HostProgram) (h : HostState) (w : Word) (line : HostLine) :
    HostState :=
  match line with
  | .wrw _ _ | .wrCtrl _ _ | .ack _ | .command _ => if (line.event c h).isSome then h.next else h
  | .rdw _ t | .rdCtrl _ t => if (line.event c h).isSome then (h.bind t w.toNat).next else h
  | .wrWide _ _ => if (line.event c h).isSome then h.limbDone c none 0 else h
  | .rdWide _ t => if (line.event c h).isSome then h.limbDone c t w else h
  | .wait => if w.getLsbD 0 then h else h.next
  | .set t e => match e.eval h.env with
    | some v => (h.bind (some t) v).next
    | none => h
  | .ifGoto cond l => match cond.eval h.env with
    | some true => h.jump p l
    | some false => h.next
    | none => h
  | .goto l => h.jump p l
  | .reset | .label _ => h.next
  | .finish => h

end Sys2Proof

namespace Sys2Proof.Machine

/-- The host's pins at the next edge; past its program it presents nothing. -/
def HostState.pins (c : Config) (p : HostProgram) (h : HostState) : Pins :=
  match p[h.line]? with
  | some line => line.pins c h
  | none => quietPins

/-- The host after that edge. -/
def HostState.after (c : Config) (p : HostProgram) (w : Word) (h : HostState) : HostState :=
  match p[h.line]? with
  | some line => line.after c p h w
  | none => h

end Sys2Proof.Machine
end

