-- ==== Sys2Proof/Machine/Clock.lean ====
section
/-! DEFINITION. One rising edge of `clk`: reset, the engine's `Complete`, and the host's port event,
in the order the spec gives them (spec/20_memory.md rule R63; spec/70_reset_and_hazards.md rules
R180, R181, R192). -/

namespace Sys2Proof

/-- An edge past the end of those the state lists: the host presents nothing and the engine takes
its `Complete`, so that every accepted command completes (R193). -/
def Edge.quiet : Edge := { pins := Machine.quietPins, complete := true }

end Sys2Proof

namespace Sys2Proof.Machine

/-- The next edge. -/
def State.nextEdge (s : State) : Edge := s.edges.headD Edge.quiet

/-- The state with that edge consumed and counted. -/
def State.advance (s : State) : State :=
  { s with edges := s.edges.tail, edgeNo := s.edgeNo + 1 }

/-- The `Complete` event: the command in `PENDING` is run (R41). -/
def State.runPending (s : State) : Host.Outcome State Fault Refusal :=
  match decode s.block.pending with
  | .ok i => exec i s
  | .error _ => .fault .pendingNotACommand

/-- One edge. With `rst = 1` it is reset, "whatever the state was and whatever the port presents"
(R180). Otherwise `Complete`, if it is taken here and enabled (R41), and then the port event: "the
`Complete` is ordered first: the port event sees the committed state and `BUSY = 0`" (R63). -/
def State.clockEdge (e : Edge) (s : State) : Host.Outcome State Fault Refusal :=
  if e.pins.rst then .next s.applyReset
  else if e.complete && s.block.status.busy then
    match s.runPending with
    | .next t => .next (t.portCycle e.pins)
    | .fault f => .fault f
    | .refused r => .refused r
  else .next (s.portCycle e.pins)

/-- One step: the next edge, for a block whose parameters are in range (V5). -/
def State.stepEdge (s : State) : Host.Outcome State Fault Refusal :=
  if s.block.config.Legal then s.advance.clockEdge s.nextEdge
  else .refused .parameterOutOfRange

/-- The machine after the command word `v` is written to `CMD` in phase IDLE, with no edge listed, so
that the very next step takes the `Complete` of the command it encodes (R40, R155; log entry 2). The
word's own write happens in no edge. Bits beyond a 32-bit word are no command: nothing is written. -/
def State.withCommand (v : Option Word) (s : State) : State :=
  match v with
  | some w => { s with block := s.block.writeCmd w, edges := [] }
  | none => { s with edges := [] }

end Sys2Proof.Machine
end

