-- ==== Sys2Proof/Machine/Step.lean ====
section
/-! DEFINITION. The step, one rising edge of `clk`, and where a command word is placed so that the
next step runs it. -/

namespace Sys2Proof.Machine

/-- One step of the machine. -/
def step (s : State) : Host.Outcome State Fault Refusal := s.stepEdge

/-- The block fetches nothing (R25, R66): the place a command is run from is `PENDING`, in phase
BUSY. This is the state with the word accepted, so that the very next step is its `Complete`
(log entry 2). -/
def State.withFetchWord (s : State) (nbits w : Nat) : State := s.withCommand (tableWord nbits w)

end Sys2Proof.Machine
end

