-- ==== Sys2Proof/Machine/Session.lean ====
section
/-! DEFINITION. A host program run against the block: the host and the machine, edge by edge, and the
program's encoding, the list of the port events it has made (spec/30_encoding.md rule R80,
spec/00_scope.md rule R19). -/

namespace Sys2Proof.Machine

/-- One port event as R80 lists it, with the word it returned if it was a read. -/
structure PortRecord where
  event : PortEvent
  word  : Option Word
  deriving DecidableEq, Repr

/-- The host, the machine, and the port events so far, oldest first. -/
structure Session where
  host    : HostState
  machine : State
  trace   : List PortRecord
  deriving DecidableEq, Repr

/-- A program at its first line, with the host's inputs, beside a machine. -/
def Session.start (env : HostEnv) (s : State) : Session :=
  { host := HostState.start env, machine := s, trace := [] }

/-- What a cycle adds to the list of events (R52, R80). -/
def record (pins : Pins) (w : Word) : List PortRecord :=
  match pins.event with
  | some (.write wa v) => [{ event := .write wa v, word := none }]
  | some (.read wa) => [{ event := .read wa, word := some w }]
  | none => []

/-- The edge the host's line makes, with the placement of `Complete` (R192). -/
def Session.edge (p : HostProgram) (complete : Bool) (x : Session) : Edge :=
  { pins := x.host.pins x.machine.block.config p, complete := complete }

/-- One edge: the machine steps on what the host presents, and the host goes on with the word it read,
the last of the machine's record. -/
def Session.step (p : HostProgram) (complete : Bool) (x : Session) :
    Host.Outcome Session Fault Refusal :=
  match Machine.step { x.machine with edges := [x.edge p complete] } with
  | .next t => .next
      { host := x.host.after x.machine.block.config p (t.reads.getLastD 0)
        machine := t
        trace := x.trace ++ record (x.edge p complete).pins (t.reads.getLastD 0) }
  | .fault f => .fault f
  | .refused r => .refused r

/-- A run of the program under a schedule of `Complete` events, one bit for each edge (R19). -/
def Session.run (p : HostProgram) : List Bool → Session → Host.Outcome Session Fault Refusal
  | [], x => .next x
  | complete :: rest, x =>
    match x.step p complete with
    | .next y => Session.run p rest y
    | .fault f => .fault f
    | .refused r => .refused r

end Sys2Proof.Machine
end

