-- ==== Sys2Proof/Safety.lean ====
section
/-! DEFINITION. What the statements speak about: the invariant of the block, the states a run
reaches, and what it means that an event changes nothing but the words it names. -/

namespace Sys2Proof.Machine

/-- The invariants of `STATUS` (R43). -/
abbrev Status.Consistent (t : Status) : Prop :=
  (t.busy = true → t.done = false ∧ t.err = false) ∧
  (t.done = true → t.err = false) ∧ (t.err = true → t.done = false) ∧
  (t.err = false ↔ t.errcode = 0) ∧
  (t.errcode = 0 ∨ t.errcode = 1 ∨ t.errcode = 3 ∨ t.errcode = 5 ∨ t.errcode = 6)

/-- Every register has the width the parameters give it: a wide register `NL` limbs, the table
`NB_MAX` entries, and `NBASES` at most `NB_MAX` (R21 to R23, R36). -/
abbrev Block.Shape (b : Block) : Prop :=
  (b.opa.length = b.config.nl ∧ b.opb.length = b.config.nl ∧ b.opm.length = b.config.nl) ∧
  (b.res0.length = b.config.nl ∧ b.res1.length = b.config.nl ∧ b.res2.length = b.config.nl) ∧
  (b.base.length = b.config.nbMax ∧ ∀ l ∈ b.base, l.length = b.config.nl) ∧
  b.nbases.toNat ≤ b.config.nbMax

/-- The block's invariant: parameters in range, registers of their widths, consistent flags, and
while a command is in flight a command word in `PENDING` (R40). -/
abbrev Block.WF (b : Block) : Prop :=
  b.config.Legal ∧ b.Shape ∧ b.status.Consistent ∧
  (b.status.busy = true → isCommand b.pending = true)

/-- The machine's invariant. -/
abbrev State.Inv (s : State) : Prop := s.block.WF

/-- A launch state (R19): nothing in flight, every register any value of its width. -/
abbrev State.Launch (s : State) : Prop := s.block.WF ∧ s.block.status.busy = false

/-- `t` is reached from the reset state of some legal block by some schedule of edges: any host
program, any placement of the `Complete` events (R19). -/
def State.Reachable (t : State) : Prop :=
  ∃ (c : Config) (es : List Edge) (k : Nat), c.Legal ∧
    Host.Core.run Sys2Proof.core k { State.resetFor c with edges := es } = .next t

/-- Every word at an address not among `changed` reads in `b'` as in `b`. -/
def Block.KeepsOutside (b : Block) (changed : WordAddr → Prop) (b' : Block) : Prop :=
  ∀ wa, ¬ changed wa → b'.portRead wa = b.portRead wa

/-- The address of `STATUS`. -/
def atStatus (wa : WordAddr) : Prop := wa = ctrlAddr .status

/-- The addresses of the limbs of a wide register. -/
def inRegister (c : Config) (r : WideName) (wa : WordAddr) : Prop :=
  ∃ j, j < c.nl ∧ wa = limbAddr r j

/-- What no command touches, beside the words the port shows: `PENDING` and the parameters. -/
def Block.KeepsHidden (b b' : Block) : Prop := b'.pending = b.pending ∧ b'.config = b.config

/-- The environment is as before: the edges to come, the words read, the count of edges. -/
def State.SameEnvironment (s t : State) : Prop :=
  t.edges = s.edges ∧ t.reads = s.reads ∧ t.edgeNo = s.edgeNo

/-- The `STATUS` word. -/
def Block.statusWord (b : Block) : Word := b.portRead (ctrlAddr .status)

/-- From `b` to `b'` a command succeeded that writes `RES0` and owns no flag: `DONE` is set and
`BUSY` cleared, every word but `STATUS` and the limbs of `RES0` reads as before (R38, R41). -/
def Block.FinishedInRes0 (b b' : Block) : Prop :=
  b'.status = { b.status with done := true, busy := false } ∧
  b.KeepsOutside (fun wa => atStatus wa ∨ inRegister b.config .res0 wa) b' ∧ b.KeepsHidden b'

/-- From `b` to `b'` a command failed with error code `k`: the report is in `ERR`, `ERRCODE` and
`BUSY`, and every word but `STATUS` reads as before (R157). -/
def Block.FailedWith (k : BitVec 8) (b b' : Block) : Prop :=
  b'.status = { b.status with err := true, errcode := k, busy := false } ∧
  b.KeepsOutside atStatus b' ∧ b.KeepsHidden b'

/-- From `b` to `b'` a write was discarded: `BUSYWR` is set and nothing else (R61). -/
def Block.Discarded (b b' : Block) : Prop :=
  b'.statusWord = b.statusWord ||| 0x8 ∧ b'.status.busy = b.status.busy ∧
  b.KeepsOutside atStatus b' ∧ b.KeepsHidden b'

/-- The next edge takes the `Complete` event of command `i` (R41). -/
def State.CompletesNow (s : State) (i : Instr) : Prop :=
  s.nextEdge.pins.rst = false ∧ s.nextEdge.complete = true ∧ s.block.status.busy = true ∧
  decode s.block.pending = .ok i

/-- The two blocks hold the same inputs of every command: parameters, operands, the base table and
its length (R38). -/
def Block.SameInputs (b b' : Block) : Prop :=
  b'.config = b.config ∧ b'.opa = b.opa ∧ b'.opb = b.opb ∧ b'.opm = b.opm ∧
  b'.base = b.base ∧ b'.nbases = b.nbases

/-- The two blocks agree on what command `i` reads (R38's "reads" column). -/
def Block.AgreeOnReads (i : Instr) (b b' : Block) : Prop :=
  b'.config = b.config ∧ b'.opa = b.opa ∧
  match i with
  | .mulmod | .montmul | .modexp => b'.opb = b.opb ∧ b'.opm = b.opm
  | .gcd | .xgcd | .modinv => b'.opb = b.opb
  | .mrtest => b'.nbases = b.nbases ∧ b'.activeBases = b.activeBases

/-- The two blocks hold the same results: result registers and result flags (R38). -/
def Block.SameResults (b b' : Block) : Prop :=
  b'.res0 = b.res0 ∧ b'.res1 = b.res1 ∧ b'.res2 = b.res2 ∧
  b'.status.prime = b.status.prime ∧ b'.status.xneg = b.status.xneg ∧
  b'.status.yneg = b.status.yneg

end Sys2Proof.Machine

namespace Sys2Proof
open Machine

/-- At the edge the host writes the command word of `i` to `CMD`. -/
def Edge.Issues (e : Edge) (i : Instr) : Prop :=
  e.pins.event = some (.write (ctrlAddr .cmd) (encode i))

/-- The word the edge reads from the block, if it is a read. -/
def Edge.readFrom (e : Edge) (b : Block) : Option Word :=
  match e.pins.event with
  | some (.read wa) => some (b.portRead wa)
  | _ => none

/-- An edge at which the host writes nothing and does not reset: a read or no access. -/
def Edge.WritesNothing (e : Edge) : Prop :=
  e.pins.rst = false ∧ ∀ wa v, e.pins.event ≠ some (.write wa v)

end Sys2Proof
end

