-- ==== Sys2Proof/Certificates/Slice0/Obligations.lean ====
section
/-! DEFINITION. The statements for the provers. Each is about every block, whatever its parameters:
`NL` and `NB_MAX` stand in the state. A statement that speaks of words says it through the port's
read. -/

section
open Sys2Proof Sys2Proof.Machine

/-! ### Encoding -/

/-- R76 (derived there): the decoder and the encoder are each other's inverse on all words; no legal
word names two commands and no two words name one. -/
def Obligations.DecodeInvertsEncode : Prop :=
  ∀ (w : Word) (i : Instr), decode w = .ok i ↔ w = encode i

/-- R75: the opcode map, read by match and mask, is the decoder, and a word is legal exactly when
`ZERO = 0` and `OPC` is one of the seven values. -/
def Obligations.OpcodeMapIsTheDecoder : Prop :=
  ∀ v : Word,
    (∀ i, decode v = .ok i ↔ ∃ r ∈ opcodeMap, r.instr = i ∧ r.Matches v) ∧
    ((∃ i, decode v = .ok i) ↔
      zeroField v = 0 ∧
        v.extractLsb' 0 8 ∈ ([0x10, 0x11, 0x20, 0x30, 0x31, 0x32, 0x40] : List (BitVec 8))) ∧
    ∀ r ∈ opcodeMap, unitField r.pattern = r.instr.unit.code

/-- R74: every unlisted word is illegal, and writing one to `CMD` in phase IDLE starts no command
and raises IllegalCommand at once; it is never a no-op. -/
def Obligations.UnlistedWordsAreIllegal : Prop :=
  ∀ v : Word, (∀ r ∈ opcodeMap, v ≠ r.pattern) →
    (∃ e, decode v = .error e) ∧
    ∀ b : Block, b.status.busy = false →
      (b.portWrite (ctrlAddr .cmd) v).status.busy = false ∧
      (b.portWrite (ctrlAddr .cmd) v).status.err = true ∧
      (b.portWrite (ctrlAddr .cmd) v).status.errcode = 5

/-- R155: IllegalCommand. In phase IDLE it sets `ERR` and `ERRCODE = 5` and clears `DONE` in that
one event, changes nothing else, and no `Complete` follows; with `BUSY = 1` the write is discarded.
-/
def Obligations.IllegalCommandReport : Prop :=
  ∀ (b : Block) (v : Word), b.config.Legal → (∀ i, v ≠ encode i) →
    (b.status.busy = false →
      (b.portWrite (ctrlAddr .cmd) v).statusWord = (b.statusWord &&& 0x78) ||| 0x504 ∧
      b.KeepsOutside atStatus (b.portWrite (ctrlAddr .cmd) v) ∧
      b.KeepsHidden (b.portWrite (ctrlAddr .cmd) v) ∧
      ∀ s : State, s.block = b.portWrite (ctrlAddr .cmd) v → s.nextEdge.pins.rst = false →
        step s = .next (s.advance.portCycle s.nextEdge.pins)) ∧
    (b.status.busy = true → b.Discarded (b.portWrite (ctrlAddr .cmd) v))

/-- R70, R75, R74: some words, written out from the format, and what they decode to. -/
def Obligations.WordsWrittenOutDecode : Prop :=
  decode 0b00000000000000000000000000010001 = .ok .montmul ∧
  decode 0b00000000000000000000000000100000 = .ok .modexp ∧
  decode 0b00000000000000000000000000110010 = .ok .modinv ∧
  decode 0b00000000000000000000000001000000 = .ok .mrtest ∧
  decode 0b00000000000000000000000000100001 = .error .funcUnused ∧
  decode 0b00000000000000000000000001010000 = .error .unitReserved ∧
  decode 0b00000000000000000000000100100000 = .error .zeroFieldNotZero

/-! ### Reset -/

/-- R44: the reset state, register by register, of every legal block. -/
def Obligations.ResetState : Prop :=
  ∀ c : Config, c.Legal →
    let b := Block.resetFor c
    (b.value .opa = 0 ∧ b.value .opb = 0 ∧ b.value .opm = 0) ∧
    (b.value .res0 = 0 ∧ b.value .res1 = 0 ∧ b.value .res2 = 0) ∧
    (b.value (.base 0) = 2 ∧ b.value (.base 1) = 3 ∧ b.value (.base 2) = 5 ∧
      b.value (.base 3) = 7 ∧ b.value (.base 4) = 11 ∧ b.value (.base 5) = 13 ∧
      b.value (.base 6) = 17 ∧ ∀ i, 7 ≤ i → i < c.nbMax → b.value (.base i) = 0) ∧
    b.portRead (ctrlAddr .nbases) = 7 ∧ b.portRead (ctrlAddr .ctrl) = 0 ∧ b.statusWord = 0 ∧
    b.phase = .idle ∧ b.pending = 0 ∧
    b.portRead (ctrlAddr .id) = 0x52534131 ∧
    (b.portRead (ctrlAddr .config)).toNat = c.nl + 256 * c.nbMax ∧ b.irq = false

/-- R180: at an edge with `rst = 1`, wherever a run has come to, a command in flight included, and
whatever the port presents, the whole block takes its reset values. That the record of reads and the
edges to come are left is no rule of the spec: it is the model's choice (log entries 3 and 5). -/
def Obligations.ResetWinsAtAnyEdge : Prop :=
  ∀ (s t : State) (k : Nat), s.block.config.Legal → Host.Core.run Sys2Proof.core k s = .next t →
    t.nextEdge.pins.rst = true →
    ∃ u, step t = .next u ∧ u.block = Block.resetFor s.block.config ∧
      u.block.phase = .idle ∧ u.block.irq = false ∧ u.reads = t.reads ∧ u.edges = t.edges.tail

/-! ### Invariants -/

/-- The reset state of every legal block, `State.reset` (log entry 1) among them, meets the
invariant. -/
def Obligations.ResetMeetsInvariant : Prop :=
  (∀ c : Config, c.Legal → (State.resetFor c).Launch) ∧ State.reset.Launch

/-- R43 (derived there), R20 to R23, R36, R40: every step keeps the block's invariant. -/
def Obligations.StepKeepsInvariant : Prop :=
  ∀ s t : State, s.Inv → step s = .next t → t.Inv

/-- Under the invariant the machine never stops: neither of the model's own stops is met. -/
def Obligations.StepGoesOn : Prop :=
  ∀ s : State, s.Inv → ∃ t, step s = .next t

/-- R43 (derived there): the invariants of `STATUS` hold in every state that any host program with
any placement of the `Complete` events reaches from reset. -/
def Obligations.StatusConsistentWhereverReached : Prop :=
  ∀ t : State, t.Reachable →
    (t.block.status.busy = true → t.block.status.done = false ∧ t.block.status.err = false) ∧
    (t.block.status.done = true → t.block.status.err = false) ∧
    (t.block.status.err = true → t.block.status.done = false) ∧
    (t.block.status.err = false ↔ t.block.status.errcode = 0) ∧
    t.block.status.errcode ∈ ([0, 1, 3, 5, 6] : List (BitVec 8))

/-! ### The address map and the port -/

/-- R53, R54: the address map. The control registers at 0 to 5; limb `j` of a wide register at
`0x0400 + 0x80*r + j`, its window reserved from `NL` on; every other address reserved. -/
def Obligations.AddressMap : Prop :=
  ∀ c : Config, c.Legal →
    (target c 0x0000 = .control .id ∧ target c 0x0001 = .control .config ∧
      target c 0x0002 = .control .ctrl ∧ target c 0x0003 = .control .status ∧
      target c 0x0004 = .control .cmd ∧ target c 0x0005 = .control .nbases) ∧
    (WideName.number .opa = 0 ∧ WideName.number .opb = 1 ∧ WideName.number .opm = 2 ∧
      WideName.number .res0 = 3 ∧ WideName.number .res1 = 4 ∧ WideName.number .res2 = 5 ∧
      ∀ i, WideName.number (.base i) = 16 + i) ∧
    (∀ (r : WideName) (j : Nat), r.Exists c → j < 128 →
      (limbAddr r j).toNat = 0x0400 + 0x80 * r.number + j ∧
      target c (limbAddr r j) = if j < c.nl then .limb r j else .reserved) ∧
    (∀ wa : WordAddr, target c wa ≠ .reserved →
      (wa.toNat ≤ 5 ∨ ∃ r j, r.Exists c ∧ j < c.nl ∧ wa = limbAddr r j) ∧
      wa.toNat ≤ 0x0400 + 0x80 * (16 + c.nbMax - 1) + c.nl - 1 ∧ wa.toNat ≤ 0x2BFF)

/-- R59: a reserved address reads 0 and takes nothing; written with `BUSY = 1` it sets `BUSYWR`. -/
def Obligations.ReservedAddressesAreInert : Prop :=
  ∀ (b : Block) (wa : WordAddr) (v : Word), target b.config wa = .reserved →
    b.portRead wa = 0 ∧
    (b.status.busy = false → b.portWrite wa v = b) ∧
    (b.status.busy = true → b.Discarded (b.portWrite wa v))

/-- R60: a write to `ID`, `CONFIG` or a limb of a result register changes nothing. -/
def Obligations.ReadOnlyRegistersKeep : Prop :=
  ∀ (b : Block) (wa : WordAddr) (v : Word), b.config.Legal →
    (wa = ctrlAddr .id ∨ wa = ctrlAddr .config ∨ inRegister b.config .res0 wa ∨
      inRegister b.config .res1 wa ∨ inRegister b.config .res2 wa) →
    (b.status.busy = false → b.portWrite wa v = b) ∧
    (b.status.busy = true → b.Discarded (b.portWrite wa v))

/-- R61: a write to any address while a command is in flight only sets `BUSYWR`: no register
changes, no command is accepted, no write-one-to-clear bit is cleared. -/
def Obligations.WritesWhileBusyAreDiscarded : Prop :=
  ∀ (b : Block) (wa : WordAddr) (v : Word), b.status.busy = true → b.Discarded (b.portWrite wa v)

/-- R62: reads at any time and at any address, however many, leave the block as it was, and each
returns the word that is there. (Edges at which no `Complete` is taken; the list `reads` is the
model's record, log entry 5.) -/
def Obligations.ReadsLeaveNoTrace : Prop :=
  ∀ (s : State) (k : Nat), s.block.config.Legal → k ≤ s.edges.length →
    (∀ e ∈ s.edges.take k,
      e.WritesNothing ∧ (e.complete = false ∨ s.block.status.busy = false)) →
    ∃ t, Host.Core.run Sys2Proof.core k s = .next t ∧ t.block = s.block ∧
      t.reads = s.reads ++ (s.edges.take k).filterMap (fun e => e.readFrom s.block)

/-- R57, R21, R23: in phase IDLE a write to one limb of an operand or of a table entry is read back
there, and every other word reads as before. -/
def Obligations.LimbWriteIsLocal : Prop :=
  ∀ (b : Block) (r : WideName) (j : Nat) (v : Word), b.WF → b.status.busy = false →
    r.Exists b.config → r ≠ .res0 → r ≠ .res1 → r ≠ .res2 → j < b.config.nl →
    (b.portWrite (limbAddr r j) v).portRead (limbAddr r j) = v ∧
    b.KeepsOutside (fun wa => wa = limbAddr r j) (b.portWrite (limbAddr r j) v) ∧
    b.KeepsHidden (b.portWrite (limbAddr r j) v)

/-- R57, R56: `RegWrite`, its limb events in any order, leaves the number in the register and every
word outside the register as it was. -/
def Obligations.RegWriteStoresTheNumber : Prop :=
  ∀ (b : Block) (r : WideName) (v : Nat) (es : List PortEvent), b.WF → b.status.busy = false →
    r.Exists b.config → r ≠ .res0 → r ≠ .res1 → r ≠ .res2 → v < 2 ^ b.config.width →
    es.Perm (regWrite b.config r v) →
    (b.applyAll es).value r = v ∧ (b.applyAll es).WF ∧
    b.KeepsOutside (inRegister b.config r) (b.applyAll es) ∧ b.KeepsHidden (b.applyAll es)

/-- R57, R56: the words `RegRead` returns, weighed by their limbs' places, are the number the
register holds, which is below `2^W`. -/
def Obligations.RegReadReturnsTheNumber : Prop :=
  ∀ (b : Block) (r : WideName), b.WF → r.Exists b.config →
    ((List.range b.config.nl).map fun j =>
      (b.portRead (limbAddr r j)).toNat * 2 ^ (32 * j)).sum = b.value r ∧
    b.value r < 2 ^ b.config.width

/-! ### Control and status registers -/

/-- R32: `CTRL` keeps bits 1:0 of what is written in phase IDLE, reads 0 elsewhere, enables the
interrupt's two sources and starts or stops nothing; with `BUSY = 1` the write is discarded; after
reset it is 0. -/
def Obligations.CtrlRegister : Prop :=
  ∀ (b : Block) (v : Word),
    (b.status.busy = false →
      (b.portWrite (ctrlAddr .ctrl) v).portRead (ctrlAddr .ctrl) = v &&& 0x3 ∧
      (b.portWrite (ctrlAddr .ctrl) v).irq =
        ((b.status.done && v.getLsbD 0) || (b.status.err && v.getLsbD 1)) ∧
      b.KeepsOutside (fun wa => wa = ctrlAddr .ctrl) (b.portWrite (ctrlAddr .ctrl) v) ∧
      b.KeepsHidden (b.portWrite (ctrlAddr .ctrl) v)) ∧
    (b.status.busy = true → b.Discarded (b.portWrite (ctrlAddr .ctrl) v)) ∧
    ∀ c : Config, (Block.resetFor c).portRead (ctrlAddr .ctrl) = 0

/-- R34: a write to `STATUS` in phase IDLE clears `DONE`, `ERR` with `ERRCODE`, and `BUSYWR` where
the written bit is 1, sets nothing, and touches no other word; with `BUSY = 1` it is discarded. -/
def Obligations.StatusWriteOneToClear : Prop :=
  ∀ (b : Block) (v : Word),
    (b.status.busy = false →
      (b.portWrite (ctrlAddr .status) v).statusWord =
        b.statusWord &&& ~~~(v &&& 0xE) &&& ~~~(if v.getLsbD 2 then 0xFF00 else 0) ∧
      b.KeepsOutside atStatus (b.portWrite (ctrlAddr .status) v) ∧
      b.KeepsHidden (b.portWrite (ctrlAddr .status) v)) ∧
    (b.status.busy = true → b.Discarded (b.portWrite (ctrlAddr .status) v))

/-- R36: `NBASES` holds `min(v[7:0], NB_MAX)` after a write in phase IDLE, so that it never exceeds
the table; with `BUSY = 1` the write is discarded; after reset it is 7. -/
def Obligations.NbasesIsClamped : Prop :=
  ∀ (b : Block) (v : Word), b.WF →
    (b.status.busy = false →
      (b.portWrite (ctrlAddr .nbases) v).portRead (ctrlAddr .nbases) =
        BitVec.ofNat 32 (min (v.toNat % 256) b.config.nbMax) ∧
      b.KeepsOutside (fun wa => wa = ctrlAddr .nbases) (b.portWrite (ctrlAddr .nbases) v) ∧
      b.KeepsHidden (b.portWrite (ctrlAddr .nbases) v)) ∧
    (b.status.busy = true → b.Discarded (b.portWrite (ctrlAddr .nbases) v)) ∧
    (b.portRead (ctrlAddr .nbases)).toNat ≤ b.config.nbMax ∧
    ∀ c : Config, (Block.resetFor c).portRead (ctrlAddr .nbases) = 7

/-- R33: where each field of `STATUS` stands, and that the reserved bits read 0. -/
def Obligations.StatusLayout : Prop :=
  ∀ b : Block,
    (b.statusWord.getLsbD 0 = b.status.busy ∧ b.statusWord.getLsbD 1 = b.status.done ∧
      b.statusWord.getLsbD 2 = b.status.err ∧ b.statusWord.getLsbD 3 = b.status.busywr ∧
      b.statusWord.getLsbD 4 = b.status.prime ∧ b.statusWord.getLsbD 5 = b.status.xneg ∧
      b.statusWord.getLsbD 6 = b.status.yneg) ∧
    b.statusWord.extractLsb' 8 8 = b.status.errcode ∧
    b.statusWord.getLsbD 7 = false ∧ b.statusWord.extractLsb' 16 16 = 0

/-- R30, R31: `ID` and `CONFIG` read as their constants, `NL` and `NB_MAX` in their ranges, and no
step changes them. -/
def Obligations.IdentificationIsConstant : Prop :=
  ∀ s t : State, step s = .next t →
    ((1 ≤ s.block.config.nl ∧ s.block.config.nl ≤ 128) ∧
      (7 ≤ s.block.config.nbMax ∧ s.block.config.nbMax ≤ 64)) ∧
    t.block.portRead (ctrlAddr .id) = 0x52534131 ∧ s.block.portRead (ctrlAddr .id) = 0x52534131 ∧
    ((s.block.portRead (ctrlAddr .config)).extractLsb' 0 8).toNat = s.block.config.nl ∧
    ((s.block.portRead (ctrlAddr .config)).extractLsb' 8 8).toNat = s.block.config.nbMax ∧
    (s.block.portRead (ctrlAddr .config)).extractLsb' 16 16 = 0 ∧
    t.block.portRead (ctrlAddr .config) = s.block.portRead (ctrlAddr .config)

/-- R160: `irq` is the level of the two enabled flags, read from the words of `STATUS` and `CTRL`;
the two sources are never both pending; clearing the flags, or the next accept, clears it; and a
discarded write does not move it. -/
def Obligations.IrqIsALevel : Prop :=
  ∀ b : Block, b.WF →
    (b.irq = true ↔
      (b.statusWord.getLsbD 1 = true ∧ (b.portRead (ctrlAddr .ctrl)).getLsbD 0 = true) ∨
      (b.statusWord.getLsbD 2 = true ∧ (b.portRead (ctrlAddr .ctrl)).getLsbD 1 = true)) ∧
    ¬ (b.statusWord.getLsbD 1 = true ∧ b.statusWord.getLsbD 2 = true) ∧
    (b.status.busy = false → (b.portWrite (ctrlAddr .status) 0x6).irq = false) ∧
    (b.status.busy = false → ∀ i, (b.portWrite (ctrlAddr .cmd) (encode i)).irq = false) ∧
    (b.status.busy = true → ∀ wa v, (b.portWrite wa v).irq = b.irq)

/-- R158: the acknowledgement of an error clears `ERR` and `ERRCODE` and nothing else, and is not
needed: a legal command word written while `ERR = 1` is accepted, which clears them too. -/
def Obligations.ErrorIsAcknowledged : Prop :=
  ∀ (b : Block) (i : Instr), b.status.busy = false → b.status.err = true →
    b.portWrite (ctrlAddr .status) 0x4 = b.acknowledge ∧
    b.acknowledge.statusWord = b.statusWord &&& 0x7B ∧
    b.KeepsOutside atStatus b.acknowledge ∧ b.KeepsHidden b.acknowledge ∧
    (b.portWrite (ctrlAddr .cmd) (encode i)).status.busy = true ∧
    (b.portWrite (ctrlAddr .cmd) (encode i)).status.done = false ∧
    (b.portWrite (ctrlAddr .cmd) (encode i)).status.err = false ∧
    (b.portWrite (ctrlAddr .cmd) (encode i)).status.errcode = 0

/-! ### The life of a command -/

/-- R40: accept. A legal command word written to `CMD` in phase IDLE goes to `PENDING` and starts
phase BUSY, with `DONE`, `ERR`, `ERRCODE` cleared and nothing else changed. -/
def Obligations.AcceptStartsTheCommand : Prop :=
  ∀ (b : Block) (i : Instr), b.status.busy = false →
    (b.portWrite (ctrlAddr .cmd) (encode i)).pending = encode i ∧
    (b.portWrite (ctrlAddr .cmd) (encode i)).phase = .busy ∧
    (b.portWrite (ctrlAddr .cmd) (encode i)).statusWord = (b.statusWord &&& 0x78) ||| 0x1 ∧
    b.KeepsOutside atStatus (b.portWrite (ctrlAddr .cmd) (encode i)) ∧
    (b.portWrite (ctrlAddr .cmd) (encode i)).config = b.config

/-- R25: the phase goes from IDLE to BUSY only where a legal command word is written to `CMD`, and
from BUSY to IDLE only by `Complete` or reset. -/
def Obligations.PhaseChangesOnlyByAcceptCompleteReset : Prop :=
  ∀ s t : State, step s = .next t →
    (s.block.status.busy = false → t.block.status.busy = true →
      ∃ i, s.nextEdge.Issues i ∧ t.block.pending = encode i) ∧
    (s.block.status.busy = true → t.block.status.busy = false →
      s.nextEdge.pins.rst = true ∨ s.nextEdge.complete = true)

/-- R41: a step that takes the `Complete` event of the command in flight is `exec` of that command,
and then the host's port event of the same edge. The second part is the model's choice, no rule of
the spec: the step after a word is placed by `withFetchWord`, which empties the edges to come, is
`exec` of the command it encodes (log entry 2), since past the list `Complete` is taken (log
entry 3). -/
def Obligations.StepRunsTheCommandInFlight : Prop :=
  (∀ (s : State) (i : Instr), s.block.config.Legal → s.CompletesNow i →
    step s =
      match exec i s.advance with
      | .next u => .next (u.portCycle s.nextEdge.pins)
      | .fault f => .fault f
      | .refused r => .refused r) ∧
  (∀ (s : State) (i : Instr), s.block.config.Legal →
    step (s.withFetchWord 32 (encode i).toNat) =
      exec i (s.withFetchWord 32 (encode i).toNat).advance)

/-- R63, R189: where `Complete` and a port event fall on one edge, `Complete` is first: a read returns
a committed word (added to `reads`, the model's record, log entry 5), and a write finds phase IDLE, so
that a command word is accepted. -/
def Obligations.CompleteComesFirstAtAnEdge : Prop :=
  ∀ (s : State) (i : Instr), s.Inv → s.CompletesNow i →
    ∃ u, exec i s.advance = .next u ∧ u.block.status.busy = false ∧
      (∀ wa, s.nextEdge.pins.event = some (.read wa) →
        step s = .next { u with reads := s.reads ++ [u.block.portRead wa] }) ∧
      (∀ wa v, s.nextEdge.pins.event = some (.write wa v) →
        step s = .next { u with block := u.block.portWrite wa v }) ∧
      (∀ j, s.nextEdge.Issues j →
        ∃ t, step s = .next t ∧ t.block.pending = encode j ∧ t.block.status.busy = true ∧
          t.block.status.busywr = s.block.status.busywr)

/-- R41, R22: all or nothing. Every command ends, with `BUSY = 0`: either it is done, `ERR` and
`ERRCODE` 0, or it reports one error and every result register and result flag is as before. And no
step without a `Complete` or a reset changes a result. -/
def Obligations.CommandsAreAllOrNothing : Prop :=
  (∀ (i : Instr) (s : State), s.Inv → s.block.status.busy = true →
    ∃ t, exec i s = .next t ∧ t.block.status.busy = false ∧ s.SameEnvironment t ∧
      ((t.block.status.done = true ∧ t.block.status.err = false ∧ t.block.status.errcode = 0) ∨
       (t.block.status.done = false ∧ t.block.status.err = true ∧
        t.block.status.errcode ∈ ([1, 3, 6] : List (BitVec 8)) ∧ s.block.SameResults t.block))) ∧
  (∀ s t : State, step s = .next t → s.nextEdge.pins.rst = false → (∀ i, ¬ s.CompletesNow i) →
    s.block.SameResults t.block)

/-- R42: no command writes `OPA`, `OPB`, `OPM`, `BASE[i]`, `NBASES` or `CTRL`. -/
def Obligations.CommandsKeepTheirOperands : Prop :=
  ∀ (i : Instr) (s : State), ∃ t, exec i s = .next t ∧ s.block.SameInputs t.block ∧
    t.block.ctrl = s.block.ctrl ∧
    (∀ r, r ≠ .res0 → r ≠ .res1 → r ≠ .res2 → t.block.value r = s.block.value r)

/-- R27: `PRIME` is written at the commit of MRTEST, with its verdict, and by no other step but
reset. -/
def Obligations.PrimeBelongsToMrtest : Prop :=
  ∀ s t : State, step s = .next t → s.nextEdge.pins.rst = false →
    (s.CompletesNow .mrtest →
      t.block.status.prime = millerRabin s.block.opaVal s.block.activeBases) ∧
    (¬ s.CompletesNow .mrtest → t.block.status.prime = s.block.status.prime)

/-- R28: `XNEG` and `YNEG` are written at the commit of XGCD, with the coefficients' signs, and by
no other step but reset, which goes for `RES1` and `RES2` too. -/
def Obligations.CoefficientSignsBelongToXgcd : Prop :=
  ∀ s t : State, s.Inv → step s = .next t → s.nextEdge.pins.rst = false →
    (s.CompletesNow .xgcd →
      t.block.status.xneg = decide ((extGcd s.block.opaVal s.block.opbVal).x < 0) ∧
      t.block.status.yneg = decide ((extGcd s.block.opaVal s.block.opbVal).y < 0)) ∧
    (¬ s.CompletesNow .xgcd →
      t.block.status.xneg = s.block.status.xneg ∧ t.block.status.yneg = s.block.status.yneg ∧
      t.block.res1 = s.block.res1 ∧ t.block.res2 = s.block.res2)

/-- R22, R38, R186: `RES1` and `RES2` change only where XGCD completes, `RES0` only where a command
other than MRTEST completes, or at reset. -/
def Obligations.ResultRegistersChangeOnlyByTheirCommands : Prop :=
  ∀ s t : State, step s = .next t → s.nextEdge.pins.rst = false →
    (t.block.res1 ≠ s.block.res1 ∨ t.block.res2 ≠ s.block.res2 → s.CompletesNow .xgcd) ∧
    (t.block.res0 ≠ s.block.res0 → ∃ i, i ≠ .mrtest ∧ s.CompletesNow i)

/-- R61, R42: while a command is in flight no step but reset changes an operand register, the base
table, `NBASES` or `CTRL`, unless the command completes at that very edge. -/
def Obligations.OperandsAreImmutableInFlight : Prop :=
  ∀ s t : State, step s = .next t → s.nextEdge.pins.rst = false → s.block.status.busy = true →
    (∀ i, ¬ s.CompletesNow i) →
    s.block.SameInputs t.block ∧ t.block.ctrl = s.block.ctrl ∧ t.block.pending = s.block.pending

/-- R157: entry to an error. The failed command has had no effect but the report: `ERR`, `ERRCODE`,
`BUSY`, with a code R151 gives the command, and `irq` rises exactly if `IE_ERR` is set. -/
def Obligations.ErrorsArePrecise : Prop :=
  ∀ (i : Instr) (s t : State), s.Inv → s.block.status.busy = true → exec i s = .next t →
    t.block.status.err = true →
    ∃ k : BitVec 8,
      ((k = 1 ∧ (i = .mulmod ∨ i = .montmul ∨ i = .modexp ∨ i = .modinv)) ∨
        (k = 3 ∧ i = .modinv) ∨ (k = 6 ∧ i = .xgcd)) ∧
      t.block.statusWord = (s.block.statusWord &&& 0x78) ||| 0x4 ||| (0#16 ++ k ++ 0#8) ∧
      s.block.KeepsOutside atStatus t.block ∧ s.block.KeepsHidden t.block ∧
      s.block.SameResults t.block ∧ s.block.SameInputs t.block ∧
      t.block.irq = s.block.ctrl.ieErr

/-! ### montgomery_mult -/

/-- R91: MULMOD, word `0x00000010`. `RES0 = (OPA * OPB) mod OPM` for `OPM ≥ 2`; InvalidModulus for
`OPM ≤ 1`. -/
def Obligations.MulmodCommand : Prop :=
  encode .mulmod = 0x00000010 ∧
  ∀ s : State, s.block.WF →
    (2 ≤ s.block.opmVal → ∃ t, exec .mulmod s = .next t ∧ s.SameEnvironment t ∧
      t.block.value .res0 = s.block.opaVal * s.block.opbVal % s.block.opmVal ∧
      s.block.FinishedInRes0 t.block) ∧
    (s.block.opmVal ≤ 1 → ∃ t, exec .mulmod s = .next t ∧ s.SameEnvironment t ∧
      s.block.FailedWith 1 t.block)

/-- R92, R93: MONTMUL, word `0x00000011`. For odd `OPM ≥ 3`, `RES0` is the number below `OPM` that
times `2^W` is the product modulo `OPM`; InvalidModulus for `OPM ≤ 1` or `OPM` even. -/
def Obligations.MontmulCommand : Prop :=
  encode .montmul = 0x00000011 ∧
  ∀ s : State, s.block.WF →
    (3 ≤ s.block.opmVal → s.block.opmVal % 2 = 1 →
      ∃ t, exec .montmul s = .next t ∧ s.SameEnvironment t ∧
        t.block.value .res0 < s.block.opmVal ∧
        t.block.value .res0 * 2 ^ s.block.config.width % s.block.opmVal =
          s.block.opaVal * s.block.opbVal % s.block.opmVal ∧
        s.block.FinishedInRes0 t.block) ∧
    (s.block.opmVal ≤ 1 ∨ s.block.opmVal % 2 = 0 →
      ∃ t, exec .montmul s = .next t ∧ s.SameEnvironment t ∧ s.block.FailedWith 1 t.block)

/-- R94 (derived there): the laws that tie MONTMUL to MULMOD, for an odd modulus `m ≥ 3` and
`R2 = 2^(2w) mod m`. -/
def Obligations.MontgomeryLaws : Prop :=
  ∀ w a b m : Nat, 3 ≤ m → m % 2 = 1 →
    montMul w (montMul w a b m) (2 ^ (2 * w) % m) m = modMul a b m ∧
    montMul w (montMul w a (2 ^ (2 * w) % m) m) (montMul w b (2 ^ (2 * w) % m) m) m =
      modMul a b m * 2 ^ w % m ∧
    montMul w a 1 m * 2 ^ w % m = a % m

/-! ### mod_pow_binary_sq -/

/-- R101: MODEXP, word `0x00000020`. `RES0 = OPA^OPB mod OPM` for `OPM ≥ 2`, `0^0 = 1` included;
InvalidModulus for `OPM ≤ 1`. -/
def Obligations.ModexpCommand : Prop :=
  encode .modexp = 0x00000020 ∧
  ∀ s : State, s.block.WF →
    (2 ≤ s.block.opmVal → ∃ t, exec .modexp s = .next t ∧ s.SameEnvironment t ∧
      t.block.value .res0 = s.block.opaVal ^ s.block.opbVal % s.block.opmVal ∧
      s.block.FinishedInRes0 t.block) ∧
    (s.block.opmVal ≤ 1 → ∃ t, exec .modexp s = .next t ∧ s.SameEnvironment t ∧
      s.block.FailedWith 1 t.block)

/-! ### extended_gcd_engine -/

/-- R111: GCD, word `0x00000030`. `RES0` is the greatest common divisor of `OPA` and `OPB`; the
command cannot fail. -/
def Obligations.GcdCommand : Prop :=
  encode .gcd = 0x00000030 ∧
  ∀ s : State, s.block.WF → ∃ t, exec .gcd s = .next t ∧ s.SameEnvironment t ∧
    t.block.value .res0 = Nat.gcd s.block.opaVal s.block.opbVal ∧ s.block.FinishedInRes0 t.block

/-- R114, R113, R118, R119, R24: XGCD, word `0x00000031`, always completes, for it never raises
CoefOverflow: the gcd, and Bézout coefficients for it of magnitude at most `max(OPA, OPB, 1)`, as
signs and magnitudes, zero with sign 0. The bound, and with it that CoefOverflow is unreachable, is
R119, which the spec marks as general knowledge. -/
def Obligations.XgcdCommand : Prop :=
  encode .xgcd = 0x00000031 ∧
  ∀ s : State, s.block.WF → ∃ t, exec .xgcd s = .next t ∧ s.SameEnvironment t ∧
    t.block.value .res0 = Nat.gcd s.block.opaVal s.block.opbVal ∧
    (s.block.opaVal : Int) * t.block.coefX + s.block.opbVal * t.block.coefY = t.block.value .res0 ∧
    t.block.coefX = (extGcd s.block.opaVal s.block.opbVal).x ∧
    t.block.coefY = (extGcd s.block.opaVal s.block.opbVal).y ∧
    t.block.value .res1 ≤ max (max s.block.opaVal s.block.opbVal) 1 ∧
    t.block.value .res2 ≤ max (max s.block.opaVal s.block.opbVal) 1 ∧
    (t.block.status.xneg = true → t.block.value .res1 ≠ 0) ∧
    (t.block.status.yneg = true → t.block.value .res2 ≠ 0) ∧
    t.block.status =
      { s.block.status with
        done := true, busy := false, xneg := t.block.status.xneg, yneg := t.block.status.yneg } ∧
    s.block.KeepsOutside
      (fun wa => atStatus wa ∨ inRegister s.block.config .res0 wa ∨
        inRegister s.block.config .res1 wa ∨ inRegister s.block.config .res2 wa) t.block ∧
    s.block.KeepsHidden t.block

/-- R119 (general knowledge there): every value the four coefficients take during `ExtGcd(a, b)`,
after any number of iterations, has magnitude at most `max(a, b, 1)`. -/
def Obligations.CoefficientsStayBounded : Prop :=
  ∀ a b k : Nat,
    (extGcdLoop k (ExtState.init a b)).oldX.natAbs ≤ max (max a b) 1 ∧
    (extGcdLoop k (ExtState.init a b)).x.natAbs ≤ max (max a b) 1 ∧
    (extGcdLoop k (ExtState.init a b)).oldY.natAbs ≤ max (max a b) 1 ∧
    (extGcdLoop k (ExtState.init a b)).y.natAbs ≤ max (max a b) 1

/-- R113 (c), (d) (derived there): which Bézout pair `ExtGcd` returns at the edges, and that
swapping different operands swaps the pair. -/
def Obligations.BezoutPairAtTheEdges : Prop :=
  (∀ a, extGcd a 0 = ⟨a, 1, 0⟩) ∧ (∀ b, 0 < b → extGcd 0 b = ⟨b, 0, 1⟩) ∧
  (∀ a, 0 < a → extGcd a a = ⟨a, 0, 1⟩) ∧ (∀ b, 2 ≤ b → extGcd 1 b = ⟨1, 1, 0⟩) ∧
  (∀ a, 1 ≤ a → extGcd a 1 = ⟨1, 0, 1⟩) ∧
  ∀ a b, a ≠ b → extGcd b a = ⟨(extGcd a b).g, (extGcd a b).y, (extGcd a b).x⟩

/-- R116, R115, R156: MODINV, word `0x00000032`. For `OPB ≥ 1` and `gcd(OPA, OPB) = 1`, `RES0` is
below `OPB` and the inverse of `OPA` modulo `OPB`; InvalidModulus for `OPB = 0`, checked first;
NoModularInverse for another gcd. -/
def Obligations.ModinvCommand : Prop :=
  encode .modinv = 0x00000032 ∧
  ∀ s : State, s.block.WF →
    (1 ≤ s.block.opbVal → Nat.gcd s.block.opaVal s.block.opbVal = 1 →
      ∃ t, exec .modinv s = .next t ∧ s.SameEnvironment t ∧
        t.block.value .res0 < s.block.opbVal ∧
        s.block.opaVal * t.block.value .res0 % s.block.opbVal = 1 % s.block.opbVal ∧
        s.block.FinishedInRes0 t.block) ∧
    (s.block.opbVal = 0 →
      ∃ t, exec .modinv s = .next t ∧ s.SameEnvironment t ∧ s.block.FailedWith 1 t.block) ∧
    (1 ≤ s.block.opbVal → Nat.gcd s.block.opaVal s.block.opbVal ≠ 1 →
      ∃ t, exec .modinv s = .next t ∧ s.SameEnvironment t ∧ s.block.FailedWith 3 t.block)

/-! ### miller_rabin_tester -/

/-- R131, R133, R134: MRTEST, word `0x00000040`. The trivial cases; otherwise `PRIME = 1` exactly if
for every active base `a` below `n`, with `n - 1 = 2^e * d` and `d` odd, the sequence `a^d, a^(2d),
…, a^(2^(e-1) d)` modulo `n` starts with 1 or meets `n - 1`. The flag and nothing else is written;
the command cannot fail. -/
def Obligations.MrtestCommand : Prop :=
  encode .mrtest = 0x00000040 ∧
  ∀ s : State, s.block.WF → ∃ t, exec .mrtest s = .next t ∧ s.SameEnvironment t ∧
    (s.block.opaVal < 2 → t.block.status.prime = false) ∧
    (s.block.opaVal = 2 ∨ s.block.opaVal = 3 → t.block.status.prime = true) ∧
    (4 ≤ s.block.opaVal → s.block.opaVal % 2 = 0 → t.block.status.prime = false) ∧
    (∀ e d, 5 ≤ s.block.opaVal → d % 2 = 1 → s.block.opaVal - 1 = 2 ^ e * d → 1 ≤ e →
      (t.block.status.prime = true ↔
        ∀ k, k < s.block.nbases.toNat → s.block.value (.base k) < s.block.opaVal →
          s.block.value (.base k) ^ d % s.block.opaVal = 1 ∨
          ∃ j, j < e ∧
            s.block.value (.base k) ^ (d * 2 ^ j) % s.block.opaVal = s.block.opaVal - 1)) ∧
    t.block.status =
      { s.block.status with done := true, busy := false, prime := t.block.status.prime } ∧
    s.block.KeepsOutside atStatus t.block ∧ s.block.KeepsHidden t.block

/-- R137, R136 (d): "false negatives never occur": MRTEST never calls a prime not prime, when every
active base below it is at least 1. -/
def Obligations.MrtestNeverCondemnsAPrime : Prop :=
  ∀ s t : State, s.block.WF → Nat.Prime s.block.opaVal →
    (∀ k, k < s.block.nbases.toNat → 1 ≤ s.block.value (.base k)) →
    exec .mrtest s = .next t → t.block.status.prime = true

/-- R136 (a) to (d) (derived there): a table with no active base below an odd `n ≥ 5` acquits it;
the bases 1 and `n - 1` always pass; an active base 0 condemns it. -/
def Obligations.MrtestTableCorners : Prop :=
  ∀ s t : State, s.block.WF → 5 ≤ s.block.opaVal → s.block.opaVal % 2 = 1 →
    exec .mrtest s = .next t →
    ((∀ k, k < s.block.nbases.toNat →
        s.block.value (.base k) = 1 ∨ s.block.opaVal - 1 ≤ s.block.value (.base k)) →
      t.block.status.prime = true) ∧
    ((∃ k, k < s.block.nbases.toNat ∧ s.block.value (.base k) = 0) →
      t.block.status.prime = false)

/-- R136 (f) (derived there): the order of the bases does not change the verdict, nor do repeated
bases: two states with the same `OPA` and the same set of active bases get the same one. -/
def Obligations.MrtestIgnoresBaseOrder : Prop :=
  ∀ s s' t t' : State, s.block.opaVal = s'.block.opaVal →
    (∀ a, a ∈ s.block.activeBases ↔ a ∈ s'.block.activeBases) →
    exec .mrtest s = .next t → exec .mrtest s' = .next t' →
    t.block.status.prime = t'.block.status.prime

/-! ### Whole runs -/

/-- R38, R26: a command's outcome is a function of what R38 says it reads: two states that agree on
that, whatever else they hold, get the same outcome and the same results. -/
def Obligations.OutcomeDependsOnlyOnWhatIsRead : Prop :=
  ∀ (i : Instr) (s s' t t' : State), s.Inv → s'.Inv → s.block.status.busy = true →
    s'.block.status.busy = true → s.block.AgreeOnReads i s'.block →
    exec i s = .next t → exec i s' = .next t' →
    t'.block.status.done = t.block.status.done ∧ t'.block.status.err = t.block.status.err ∧
    t'.block.status.errcode = t.block.status.errcode ∧
    (s.block.SameResults s'.block → t.block.SameResults t'.block) ∧
    (t.block.status.err = false →
      (i ≠ .mrtest → t'.block.res0 = t.block.res0) ∧
      (i = .mrtest → t'.block.status.prime = t.block.status.prime) ∧
      (i = .xgcd → t'.block.res1 = t.block.res1 ∧ t'.block.res2 = t.block.res2 ∧
        t'.block.status.xneg = t.block.status.xneg ∧
        t'.block.status.yneg = t.block.status.yneg))

/-- R40, R41, R192, R193: every accepted command completes, wherever the schedule places its
`Complete` and whatever the host reads and writes meanwhile, on the operands it had at accept, and
until then every result is as before. The bound on the number of steps is the model's choice: past
the schedule's end `Complete` is taken (log entry 3). -/
def Obligations.AcceptedCommandCompletesOnItsOperands : Prop :=
  ∀ (s : State) (i : Instr) (e : Edge) (es : List Edge), s.Launch → s.edges = e :: es →
    e.Issues i → (∀ e' ∈ es, e'.pins.rst = false) →
    ∃ (k : Nat) (t u : State), 1 ≤ k ∧ k ≤ es.length + 1 ∧
      Host.Core.run Sys2Proof.core k s = .next t ∧ t.CompletesNow i ∧
      s.block.SameInputs t.block ∧ s.block.SameResults t.block ∧
      exec i t.advance = .next u ∧ step t = .next (u.portCycle t.nextEdge.pins)

/-- R192, R184, R64: for a host that writes nothing while it waits, the block ends the same under
every placement of `Complete` and whatever is read meanwhile: as the command run at once on the
accepting state leaves it. That the end is reached one step past the schedule is the model's choice:
the quiet edge there takes `Complete` (log entry 3). -/
def Obligations.PlacementOfCompleteDoesNotMatter : Prop :=
  ∀ (s : State) (i : Instr), s.Launch →
    ∃ u, exec i { s with block := s.block.accept (encode i) } = .next u ∧
      ∀ (e : Edge) (es : List Edge), e.Issues i → (∀ e' ∈ es, e'.WritesNothing) →
        ∃ t, Host.Core.run Sys2Proof.core (es.length + 2) { s with edges := e :: es } = .next t ∧
          t.block = u.block ∧ t.edges = []

/-! ### Host programs -/

/-- R19, R80: a host program run beside the block is a run of the machine, on the edges its lines
make with the placements of `Complete` that were given: what is stated of every run holds of every
host program. -/
def Obligations.SessionsAreRuns : Prop :=
  ∀ (p : HostProgram) (ps : List Bool) (x y : Session), Session.run p ps x = .next y →
    ∃ (es : List Edge) (t : State), es.map (·.complete) = ps ∧
      Host.Core.run Sys2Proof.core ps.length { x.machine with edges := es } = .next t ∧
      t.block = y.machine.block ∧ t.reads = y.machine.reads ∧
      (y.trace.map (·.event)) = x.trace.map (·.event) ++ es.filterMap (·.pins.event)

/-- R79, R80: `WAIT` is the polling loop. While the command in flight does not complete, every poll is
a read of `STATUS` that returns bit 0 set, and the host stays on the line; the first poll that
returns bit 0 clear ends it, for every delay of `Complete`. With nothing in flight one poll does. That `WAIT` binds no variable of
the program, and that a poll with the test of its word takes one edge, is the model's choice (log
entry 11): it stands in `y.host = x.host`, in `z.host = x.host.next` and in the number of edges. -/
def Obligations.WaitPollsUntilNotBusy : Prop :=
  ∀ (p : HostProgram) (x : Session), x.machine.Inv → p[x.host.line]? = some .wait →
    (∀ (i : Instr) (k : Nat), x.machine.block.status.busy = true →
      decode x.machine.block.pending = .ok i →
      (∃ y, Session.run p (List.replicate k false) x = .next y ∧ y.host = x.host ∧
        y.machine.block = x.machine.block ∧ x.machine.block.statusWord.getLsbD 0 = true ∧
        y.trace = x.trace ++
          List.replicate k ⟨.read (ctrlAddr .status), some x.machine.block.statusWord⟩) ∧
      ∃ u z, exec i x.machine = .next u ∧
        Session.run p (List.replicate k false ++ [true]) x = .next z ∧ z.host = x.host.next ∧
        z.machine.block = u.block ∧ u.block.statusWord.getLsbD 0 = false ∧
        z.trace = x.trace ++
          List.replicate k ⟨.read (ctrlAddr .status), some x.machine.block.statusWord⟩ ++
          [⟨.read (ctrlAddr .status), some u.block.statusWord⟩]) ∧
    (∀ complete, x.machine.block.status.busy = false →
      ∃ z, x.step p complete = .next z ∧ z.host = x.host.next ∧
        z.machine.block = x.machine.block ∧
        z.trace = x.trace ++ [⟨.read (ctrlAddr .status), some x.machine.block.statusWord⟩])

/-- R79, R57: `WR` and `RD` of a wide register are the `NL` events of `RegWrite` and `RegRead`, under
every placement of `Complete`; in phase IDLE `WR` leaves what `RegWrite` leaves, and `RD` binds the
number the register holds and changes nothing. The last clause is the model's choice (log entry 13):
a `WR` or an `RD` of a base-table entry that does not exist makes no event, and the host stays. -/
def Obligations.RegisterLinesExpand : Prop :=
  ∀ (p : HostProgram) (x : Session) (ps : List Bool), x.machine.Inv → x.host.part = 0 →
    x.host.acc = 0 → ps.length = x.machine.block.config.nl →
    (∀ (r : WideName) (e : HostExpr) (v : Nat), p[x.host.line]? = some (.wrWide r e) →
      r.Exists x.machine.block.config → e.eval x.host.env = some (v : Int) →
      v < 2 ^ x.machine.block.config.width →
      ∃ y, Session.run p ps x = .next y ∧ y.host = x.host.next ∧
        y.trace = x.trace ++ (regWrite x.machine.block.config r v).map (⟨·, none⟩) ∧
        (x.machine.block.status.busy = false →
          y.machine.block =
            x.machine.block.applyAll (regWrite x.machine.block.config r v))) ∧
    (∀ (r : WideName) (t : HostVar), p[x.host.line]? = some (.rdWide r (some t)) →
      r.Exists x.machine.block.config →
      ∃ y, Session.run p ps x = .next y ∧ y.host.line = x.host.line + 1 ∧
        y.trace.map (·.event) =
          x.trace.map (·.event) ++ regRead x.machine.block.config r ∧
        (x.machine.block.status.busy = false →
          y.machine.block = x.machine.block ∧
          y.host.env.lookup t = some (x.machine.block.value r : Int))) ∧
    (∀ (r : WideName) (complete : Bool), ¬ r.Exists x.machine.block.config →
      ((∃ e, p[x.host.line]? = some (.wrWide r e)) ∨ ∃ t, p[x.host.line]? = some (.rdWide r t)) →
      ∃ y, x.step p complete = .next y ∧ y.trace = x.trace ∧ y.host = x.host)

/-- R78, R79: the lines of one port event, under either placement of `Complete`: `WRW`, `ACK`, `WR` of
a control register and a bare mnemonic write, `RDW` and `RD` of a control register read and bind the
word that is returned; the host then goes on to the next line. -/
def Obligations.OneEventLines : Prop :=
  ∀ (p : HostProgram) (x : Session) (complete : Bool), x.machine.Inv →
    (∀ (line : HostLine) (wa : WordAddr) (v : Word), p[x.host.line]? = some line →
      ((∃ a e, line = .wrw a e ∧ a.eval x.host.env = some (wa.toNat : Int) ∧
          e.eval x.host.env = some (v.toNat : Int)) ∨
        (∃ e, line = .ack e ∧ wa = ctrlAddr .status ∧ e.eval x.host.env = some (v.toNat : Int)) ∨
        (∃ r e, line = .wrCtrl r e ∧ wa = ctrlAddr r ∧
          e.eval x.host.env = some (v.toNat : Int)) ∨
        (∃ i, line = .command i ∧ wa = ctrlAddr .cmd ∧ v = encode i)) →
      ∃ y, x.step p complete = .next y ∧ y.host = x.host.next ∧
        y.trace = x.trace ++ [⟨.write wa v, none⟩]) ∧
    (∀ (line : HostLine) (wa : WordAddr) (t : HostVar), p[x.host.line]? = some line →
      ((∃ a, line = .rdw a (some t) ∧ a.eval x.host.env = some (wa.toNat : Int)) ∨
        (∃ r, line = .rdCtrl r (some t) ∧ wa = ctrlAddr r)) →
      ∃ y, x.step p complete = .next y ∧ y.host.line = x.host.line + 1 ∧
        y.host.env.lookup t = some ((y.machine.block.portRead wa).toNat : Int) ∧
        y.trace = x.trace ++ [⟨.read wa, some (y.machine.block.portRead wa)⟩])

/-- R79, R78: the host-only lines `SET`, label, `IF`, `GOTO` and `END`, and `RESET`, make no port event;
`SET` binds, a jump taken leads to the line of its label, and `RESET` resets the block. That such a
line takes one edge is the model's choice (log entry 11). -/
def Obligations.HostOnlyLinesMakeNoEvent : Prop :=
  ∀ (p : HostProgram) (x : Session) (complete : Bool), x.machine.Inv →
    (∀ t e v, p[x.host.line]? = some (.set t e) → e.eval x.host.env = some v →
      ∃ y, x.step p complete = .next y ∧ y.trace = x.trace ∧ y.host.line = x.host.line + 1 ∧
        y.host.env.lookup t = some v ∧
        ∀ t', t' ≠ t → y.host.env.lookup t' = x.host.env.lookup t') ∧
    (∀ l n, (p[x.host.line]? = some (.goto l) ∨
        ∃ c, p[x.host.line]? = some (.ifGoto c l) ∧ c.eval x.host.env = some true) →
      p[n]? = some (.label l) → p.count (.label l) = 1 →
      ∃ y, x.step p complete = .next y ∧ y.trace = x.trace ∧ y.host = x.host.goLine n) ∧
    (∀ c l, (p[x.host.line]? = some (.label l) ∨
        (p[x.host.line]? = some (.ifGoto c l) ∧ c.eval x.host.env = some false)) →
      ∃ y, x.step p complete = .next y ∧ y.trace = x.trace ∧ y.host = x.host.next) ∧
    (p[x.host.line]? = some .finish →
      ∃ y, x.step p complete = .next y ∧ y.trace = x.trace ∧ y.host = x.host) ∧
    (p[x.host.line]? = some .reset →
      ∃ y, x.step p complete = .next y ∧ y.trace = x.trace ∧ y.host = x.host.next ∧
        y.machine.block = Block.resetFor x.machine.block.config)

end
end

