-- ==== Sys2Proof/Laws/Limbs.lean ====
section
/-! SUPPORT. Wide registers as numbers: the limbs of a number and the number of the limbs are each
other's inverse (R56), and one limb is 32 of the number's bits. -/

namespace Sys2Proof.Machine

@[simp] theorem natToLimbs_length (n v : Nat) : (natToLimbs n v).length = n := by
  induction n generalizing v with
  | zero => rfl
  | succ n ih => simp [natToLimbs, ih]

theorem limbsToNat_lt (l : Limbs) : limbsToNat l < 2 ^ (32 * l.length) := by
  induction l with
  | nil => simp [limbsToNat]
  | cons w ws ih =>
    have hw := w.isLt
    have : 2 ^ (32 * (ws.length + 1)) = 2 ^ 32 * 2 ^ (32 * ws.length) := by
      rw [← pow_add]; congr 1; omega
    simp only [limbsToNat, List.length_cons, this]
    omega

/-- What a register of `n` limbs holds after `v` is stored: `v`, if it fits. -/
theorem limbsToNat_natToLimbs_mod (n v : Nat) :
    limbsToNat (natToLimbs n v) = v % 2 ^ (32 * n) := by
  induction n generalizing v with
  | zero => simp [natToLimbs, limbsToNat, Nat.mod_one]
  | succ n ih =>
    have : 2 ^ (32 * (n + 1)) = 2 ^ 32 * 2 ^ (32 * n) := by
      rw [← pow_add]; congr 1; omega
    simp only [natToLimbs, limbsToNat, ih, BitVec.toNat_ofNat, this, Nat.mod_mul]

theorem limbsToNat_natToLimbs {n v : Nat} (h : v < 2 ^ (32 * n)) :
    limbsToNat (natToLimbs n v) = v := by
  rw [limbsToNat_natToLimbs_mod, Nat.mod_eq_of_lt h]

theorem natToLimbs_limbsToNat (l : Limbs) : natToLimbs l.length (limbsToNat l) = l := by
  induction l with
  | nil => rfl
  | cons w ws ih =>
    have hdiv : (w.toNat + 2 ^ 32 * limbsToNat ws) / 2 ^ 32 = limbsToNat ws := by
      have := w.isLt; omega
    have hlow : BitVec.ofNat 32 (w.toNat + 2 ^ 32 * limbsToNat ws) = w := by
      apply BitVec.eq_of_toNat_eq
      have := w.isLt
      simp only [BitVec.toNat_ofNat]; omega
    simp only [List.length_cons, natToLimbs, limbsToNat, hdiv, hlow, ih]

/-- Two registers of one width that hold the same number are the same. -/
theorem limbs_ext {l m : Limbs} (hlen : l.length = m.length)
    (h : limbsToNat l = limbsToNat m) : l = m := by
  rw [← natToLimbs_limbsToNat l, ← natToLimbs_limbsToNat m, hlen, h]

/-- Limb `j` of a stored number is its bits `v[32j+31 : 32j]`. -/
theorem natToLimbs_getD {n j : Nat} (v : Nat) (h : j < n) :
    (natToLimbs n v).getD j 0 = limbOf v j := by
  induction n generalizing v j with
  | zero => omega
  | succ n ih =>
    cases j with
    | zero => simp [natToLimbs, limbOf]
    | succ j =>
      have hpow : 2 ^ (32 * (j + 1)) = 2 ^ 32 * 2 ^ (32 * j) := by
        rw [← pow_add]; congr 1; omega
      simp only [natToLimbs, List.getD_cons_succ, ih (v / 2 ^ 32) (Nat.lt_of_succ_lt_succ h), limbOf,
        hpow, Nat.div_div_eq_div_mul]

theorem natToLimbs_zero (n : Nat) : natToLimbs n 0 = List.replicate n 0 := by
  induction n with
  | zero => rfl
  | succ n ih => simp [natToLimbs, ih, List.replicate_succ]

end Sys2Proof.Machine
end

