-- ==== Sys2Proof/Laws/State.lean ====
section
/-! SUPPORT. One lemma for each field and each update of the state, so that no later proof unfolds a
record update. -/

namespace Sys2Proof.Machine

section Accept
variable (v : Word) (b : Block)

@[simp] theorem accept_config : (b.accept v).config = b.config := rfl
@[simp] theorem accept_opa : (b.accept v).opa = b.opa := rfl
@[simp] theorem accept_opb : (b.accept v).opb = b.opb := rfl
@[simp] theorem accept_opm : (b.accept v).opm = b.opm := rfl
@[simp] theorem accept_res0 : (b.accept v).res0 = b.res0 := rfl
@[simp] theorem accept_res1 : (b.accept v).res1 = b.res1 := rfl
@[simp] theorem accept_res2 : (b.accept v).res2 = b.res2 := rfl
@[simp] theorem accept_base : (b.accept v).base = b.base := rfl
@[simp] theorem accept_nbases : (b.accept v).nbases = b.nbases := rfl
@[simp] theorem accept_ctrl : (b.accept v).ctrl = b.ctrl := rfl
@[simp] theorem accept_pending : (b.accept v).pending = v := rfl
@[simp] theorem accept_status : (b.accept v).status = b.status.accept := rfl

end Accept

section Reject
variable (b : Block)

@[simp] theorem rejectCommand_config : b.rejectCommand.config = b.config := rfl
@[simp] theorem rejectCommand_opa : b.rejectCommand.opa = b.opa := rfl
@[simp] theorem rejectCommand_opb : b.rejectCommand.opb = b.opb := rfl
@[simp] theorem rejectCommand_opm : b.rejectCommand.opm = b.opm := rfl
@[simp] theorem rejectCommand_res0 : b.rejectCommand.res0 = b.res0 := rfl
@[simp] theorem rejectCommand_res1 : b.rejectCommand.res1 = b.res1 := rfl
@[simp] theorem rejectCommand_res2 : b.rejectCommand.res2 = b.res2 := rfl
@[simp] theorem rejectCommand_base : b.rejectCommand.base = b.base := rfl
@[simp] theorem rejectCommand_nbases : b.rejectCommand.nbases = b.nbases := rfl
@[simp] theorem rejectCommand_ctrl : b.rejectCommand.ctrl = b.ctrl := rfl
@[simp] theorem rejectCommand_pending : b.rejectCommand.pending = b.pending := rfl
@[simp] theorem rejectCommand_status : b.rejectCommand.status = b.status.illegalCommand := rfl

end Reject

section Raise
variable (k : ErrorKind) (b : Block)

@[simp] theorem raise_config : (b.raise k).config = b.config := rfl
@[simp] theorem raise_opa : (b.raise k).opa = b.opa := rfl
@[simp] theorem raise_opb : (b.raise k).opb = b.opb := rfl
@[simp] theorem raise_opm : (b.raise k).opm = b.opm := rfl
@[simp] theorem raise_res0 : (b.raise k).res0 = b.res0 := rfl
@[simp] theorem raise_res1 : (b.raise k).res1 = b.res1 := rfl
@[simp] theorem raise_res2 : (b.raise k).res2 = b.res2 := rfl
@[simp] theorem raise_base : (b.raise k).base = b.base := rfl
@[simp] theorem raise_nbases : (b.raise k).nbases = b.nbases := rfl
@[simp] theorem raise_ctrl : (b.raise k).ctrl = b.ctrl := rfl
@[simp] theorem raise_pending : (b.raise k).pending = b.pending := rfl
@[simp] theorem raise_status : (b.raise k).status = b.status.fail k := rfl

end Raise

section Commit
variable (r : Results) (b : Block)

@[simp] theorem commit_config : (b.commit r).config = b.config := rfl
@[simp] theorem commit_opa : (b.commit r).opa = b.opa := rfl
@[simp] theorem commit_opb : (b.commit r).opb = b.opb := rfl
@[simp] theorem commit_opm : (b.commit r).opm = b.opm := rfl
@[simp] theorem commit_res0 :
    (b.commit r).res0 = storeResult b.config.nl r.res0 b.res0 := rfl
@[simp] theorem commit_res1 :
    (b.commit r).res1 = storeResult b.config.nl r.res1 b.res1 := rfl
@[simp] theorem commit_res2 :
    (b.commit r).res2 = storeResult b.config.nl r.res2 b.res2 := rfl
@[simp] theorem commit_base : (b.commit r).base = b.base := rfl
@[simp] theorem commit_nbases : (b.commit r).nbases = b.nbases := rfl
@[simp] theorem commit_ctrl : (b.commit r).ctrl = b.ctrl := rfl
@[simp] theorem commit_pending : (b.commit r).pending = b.pending := rfl
@[simp] theorem commit_busy : (b.commit r).status.busy = false := rfl
@[simp] theorem commit_done : (b.commit r).status.done = true := rfl
@[simp] theorem commit_err : (b.commit r).status.err = b.status.err := rfl
@[simp] theorem commit_busywr : (b.commit r).status.busywr = b.status.busywr := rfl
@[simp] theorem commit_prime : (b.commit r).status.prime = r.prime.getD b.status.prime := rfl
@[simp] theorem commit_xneg : (b.commit r).status.xneg = r.xneg.getD b.status.xneg := rfl
@[simp] theorem commit_yneg : (b.commit r).status.yneg = r.yneg.getD b.status.yneg := rfl
@[simp] theorem commit_errcode : (b.commit r).status.errcode = b.status.errcode := rfl

end Commit

section Complete
variable (r : Results) (k : ErrorKind) (b : Block) (o : Except ErrorKind Results) (s : State)

@[simp] theorem complete_ok : b.complete (.ok r) = b.commit r := rfl
@[simp] theorem complete_error : b.complete (.error k) = b.raise k := rfl
@[simp] theorem complete_config : (b.complete o).config = b.config := by cases o <;> rfl
@[simp] theorem complete_opa : (b.complete o).opa = b.opa := by cases o <;> rfl
@[simp] theorem complete_opb : (b.complete o).opb = b.opb := by cases o <;> rfl
@[simp] theorem complete_opm : (b.complete o).opm = b.opm := by cases o <;> rfl
@[simp] theorem complete_base : (b.complete o).base = b.base := by cases o <;> rfl
@[simp] theorem complete_nbases : (b.complete o).nbases = b.nbases := by cases o <;> rfl
@[simp] theorem complete_ctrl : (b.complete o).ctrl = b.ctrl := by cases o <;> rfl
@[simp] theorem complete_pending : (b.complete o).pending = b.pending := by cases o <;> rfl
@[simp] theorem complete_busy : (b.complete o).status.busy = false := by cases o <;> rfl
@[simp] theorem complete_busywr : (b.complete o).status.busywr = b.status.busywr := by
  cases o <;> rfl

@[simp] theorem State.complete_block : (s.complete o).block = s.block.complete o := rfl
@[simp] theorem State.complete_edges : (s.complete o).edges = s.edges := rfl
@[simp] theorem State.complete_reads : (s.complete o).reads = s.reads := rfl
@[simp] theorem State.complete_edgeNo : (s.complete o).edgeNo = s.edgeNo := rfl

end Complete

section Machine
variable (s : State) (v : Word)

@[simp] theorem advance_block : s.advance.block = s.block := rfl
@[simp] theorem advance_edges : s.advance.edges = s.edges.tail := rfl
@[simp] theorem advance_reads : s.advance.reads = s.reads := rfl
@[simp] theorem advance_edgeNo : s.advance.edgeNo = s.edgeNo + 1 := rfl

@[simp] theorem applyReset_block : s.applyReset.block = Block.resetFor s.block.config := rfl
@[simp] theorem applyReset_edges : s.applyReset.edges = s.edges := rfl
@[simp] theorem applyReset_reads : s.applyReset.reads = s.reads := rfl
@[simp] theorem applyReset_edgeNo : s.applyReset.edgeNo = s.edgeNo := rfl

@[simp] theorem withCommand_block : (s.withCommand (some v)).block = s.block.writeCmd v := rfl
@[simp] theorem withCommand_edges (o : Option Word) : (s.withCommand o).edges = [] := by
  cases o <;> rfl
@[simp] theorem withCommand_reads (o : Option Word) : (s.withCommand o).reads = s.reads := by
  cases o <;> rfl
@[simp] theorem withCommand_edgeNo (o : Option Word) : (s.withCommand o).edgeNo = s.edgeNo := by
  cases o <;> rfl

@[simp] theorem resetFor_config (c : Config) : (Block.resetFor c).config = c := rfl
@[simp] theorem resetFor_status (c : Config) : (Block.resetFor c).status = Status.reset := rfl
@[simp] theorem State.resetFor_block (c : Config) :
    (State.resetFor c).block = Block.resetFor c := rfl

end Machine

section SetWide
variable (b : Block) (r : WideName) (l : Limbs)

@[simp] theorem setWide_config : (b.setWide r l).config = b.config := by cases r <;> rfl
@[simp] theorem setWide_nbases : (b.setWide r l).nbases = b.nbases := by cases r <;> rfl
@[simp] theorem setWide_ctrl : (b.setWide r l).ctrl = b.ctrl := by cases r <;> rfl
@[simp] theorem setWide_status : (b.setWide r l).status = b.status := by cases r <;> rfl
@[simp] theorem setWide_pending : (b.setWide r l).pending = b.pending := by cases r <;> rfl

@[simp] theorem writeLimb_config (j : Nat) (v : Word) : (b.writeLimb r j v).config = b.config := by
  unfold Block.writeLimb; split <;> simp
@[simp] theorem writeLimb_nbases (j : Nat) (v : Word) : (b.writeLimb r j v).nbases = b.nbases := by
  unfold Block.writeLimb; split <;> simp
@[simp] theorem writeLimb_ctrl (j : Nat) (v : Word) : (b.writeLimb r j v).ctrl = b.ctrl := by
  unfold Block.writeLimb; split <;> simp
@[simp] theorem writeLimb_status (j : Nat) (v : Word) : (b.writeLimb r j v).status = b.status := by
  unfold Block.writeLimb; split <;> simp
@[simp] theorem writeLimb_pending (j : Nat) (v : Word) :
    (b.writeLimb r j v).pending = b.pending := by
  unfold Block.writeLimb; split <;> simp

end SetWide

section Flags
variable (t : Status) (k : ErrorKind) (v : Word)

@[simp] theorem accept_busy : t.accept.busy = true := rfl
@[simp] theorem accept_done : t.accept.done = false := rfl
@[simp] theorem accept_err : t.accept.err = false := rfl
@[simp] theorem accept_errcode : t.accept.errcode = 0 := rfl
@[simp] theorem accept_busywr : t.accept.busywr = t.busywr := rfl
@[simp] theorem accept_prime : t.accept.prime = t.prime := rfl
@[simp] theorem accept_xneg : t.accept.xneg = t.xneg := rfl
@[simp] theorem accept_yneg : t.accept.yneg = t.yneg := rfl

@[simp] theorem illegalCommand_busy : t.illegalCommand.busy = t.busy := rfl
@[simp] theorem illegalCommand_done : t.illegalCommand.done = false := rfl
@[simp] theorem illegalCommand_err : t.illegalCommand.err = true := rfl
@[simp] theorem illegalCommand_errcode : t.illegalCommand.errcode = 5 := rfl
@[simp] theorem illegalCommand_busywr : t.illegalCommand.busywr = t.busywr := rfl
@[simp] theorem illegalCommand_prime : t.illegalCommand.prime = t.prime := rfl
@[simp] theorem illegalCommand_xneg : t.illegalCommand.xneg = t.xneg := rfl
@[simp] theorem illegalCommand_yneg : t.illegalCommand.yneg = t.yneg := rfl

@[simp] theorem fail_busy : (t.fail k).busy = false := rfl
@[simp] theorem fail_done : (t.fail k).done = t.done := rfl
@[simp] theorem fail_err : (t.fail k).err = true := rfl
@[simp] theorem fail_errcode : (t.fail k).errcode = k.code := rfl
@[simp] theorem fail_busywr : (t.fail k).busywr = t.busywr := rfl
@[simp] theorem fail_prime : (t.fail k).prime = t.prime := rfl
@[simp] theorem fail_xneg : (t.fail k).xneg = t.xneg := rfl
@[simp] theorem fail_yneg : (t.fail k).yneg = t.yneg := rfl

@[simp] theorem writeOneToClear_busy : (t.writeOneToClear v).busy = t.busy := rfl
@[simp] theorem writeOneToClear_done :
    (t.writeOneToClear v).done = (t.done && !v.getLsbD 1) := rfl
@[simp] theorem writeOneToClear_err :
    (t.writeOneToClear v).err = (t.err && !v.getLsbD 2) := rfl
@[simp] theorem writeOneToClear_errcode :
    (t.writeOneToClear v).errcode = if v.getLsbD 2 then 0 else t.errcode := rfl
@[simp] theorem writeOneToClear_busywr :
    (t.writeOneToClear v).busywr = (t.busywr && !v.getLsbD 3) := rfl
@[simp] theorem writeOneToClear_prime : (t.writeOneToClear v).prime = t.prime := rfl
@[simp] theorem writeOneToClear_xneg : (t.writeOneToClear v).xneg = t.xneg := rfl
@[simp] theorem writeOneToClear_yneg : (t.writeOneToClear v).yneg = t.yneg := rfl

end Flags

end Sys2Proof.Machine
end

