-- ==== Sys2Proof/Laws/Port.lean ====
section
/-! SUPPORT. The address map, both ways, and what a read sees after a write (spec/20_memory.md). -/

namespace Sys2Proof.Machine

/-! ### The address map -/

@[simp] theorem target_ctrlAddr (c : Config) (r : CtrlName) :
    target c (ctrlAddr r) = .control r := by
  cases r <;> rfl

theorem number_lt {c : Config} (hc : c.Legal) {r : WideName} (hr : r.Exists c) :
    r.number < 80 := by
  obtain ⟨-, -, hb⟩ := hc
  cases r <;> simp_all [WideName.number, WideName.Exists]
  omega

/-- `0x0400 + 0x80*r + j` is a 14-bit address: nothing is cut off (R54). -/
theorem limbAddr_toNat {c : Config} (hc : c.Legal) {r : WideName} (hr : r.Exists c) {j : Nat}
    (hj : j < c.nl) : (limbAddr r j).toNat = 0x0400 + 0x80 * r.number + j := by
  have hn := number_lt hc hr
  have hnl := hc.1.2
  simp only [limbAddr, BitVec.toNat_ofNat]
  omega

theorem wideOfNumber_number {c : Config} {r : WideName} (hr : r.Exists c) :
    wideOfNumber c r.number = some r := by
  cases r with
  | base i =>
    have h : ∀ k, k = 16 + i → wideOfNumber c k = some (.base i) := by
      intro k hk
      subst hk
      unfold wideOfNumber
      split <;> first | omega | simp_all [WideName.Exists]
    exact h _ rfl
  | _ => rfl

theorem number_of_wideOfNumber {c : Config} {k : Nat} {r : WideName}
    (h : wideOfNumber c k = some r) : r.number = k ∧ r.Exists c := by
  unfold wideOfNumber at h
  split at h
  case h_7 =>
    split at h
    · rename_i hk
      cases h
      exact ⟨by simp only [WideName.number]; omega, hk.2⟩
    · cases h
  all_goals
    cases h
    simp [WideName.number, WideName.Exists]

theorem target_high {c : Config} {wa : WordAddr} (h : 0x0400 ≤ wa.toNat) :
    target c wa = windowTarget c (wa.toNat - 0x0400) := by
  unfold target
  split <;> simp_all

theorem target_limbAddr {c : Config} (hc : c.Legal) {r : WideName} (hr : r.Exists c) {j : Nat}
    (hj : j < c.nl) : target c (limbAddr r j) = .limb r j := by
  have ha := limbAddr_toNat hc hr hj
  have hnl := hc.1.2
  rw [target_high (by omega), ha]
  have hk : 0x0400 + 0x80 * r.number + j - 0x0400 = 0x80 * r.number + j := by omega
  have hd : (0x80 * r.number + j) / 0x80 = r.number := by omega
  have hm : (0x80 * r.number + j) % 0x80 = j := by omega
  simp only [hk, windowTarget, hd, hm, wideOfNumber_number hr, hj, if_true]

/-- An address stands for a limb only if it is that limb's address. -/
theorem limbAddr_of_target {c : Config} {wa : WordAddr} {r : WideName} {j : Nat}
    (h : target c wa = .limb r j) : wa = limbAddr r j ∧ r.Exists c ∧ j < c.nl := by
  unfold target at h
  split at h
  case h_7 =>
    split at h
    · rename_i n _ _ _ _ _ _ hn
      unfold windowTarget at h
      split at h
      · rename_i r' hr'
        split at h
        · rename_i hj
          cases h
          obtain ⟨hnum, hex⟩ := number_of_wideOfNumber hr'
          refine ⟨?_, hex, hj⟩
          apply BitVec.eq_of_toNat_eq
          have hlt := wa.isLt
          simp only [limbAddr, BitVec.toNat_ofNat, hnum]
          omega
        · cases h
      · cases h
    · cases h
  all_goals cases h

theorem ctrlAddr_of_target {c : Config} {wa : WordAddr} {r : CtrlName}
    (h : target c wa = .control r) : wa = ctrlAddr r := by
  unfold target at h
  split at h
  case h_7 =>
    split at h
    · unfold windowTarget at h
      split at h
      · split at h <;> cases h
      · cases h
    · cases h
  all_goals
    rename_i heq
    cases h
    exact BitVec.eq_of_toNat_eq heq

/-! ### Reads -/

@[simp] theorem portRead_ctrlAddr (b : Block) (r : CtrlName) :
    b.portRead (ctrlAddr r) = b.readCtrl r := by
  simp [Block.portRead]

theorem portRead_limbAddr {b : Block} (hc : b.config.Legal) {r : WideName}
    (hr : r.Exists b.config) {j : Nat} (hj : j < b.config.nl) :
    b.portRead (limbAddr r j) = (b.wide r).getD j 0 := by
  simp [Block.portRead, target_limbAddr hc hr hj]

/-- Two blocks with the same parameters and the same limbs at an address that is a limb's, and the
same control register at one that is a control register's, read alike there. -/
theorem portRead_congr {b b' : Block} (wa : WordAddr) (hc : b'.config = b.config)
    (hl : ∀ r j, target b.config wa = .limb r j → (b'.wide r).getD j 0 = (b.wide r).getD j 0)
    (hr : ∀ r, wa = ctrlAddr r → b'.readCtrl r = b.readCtrl r) :
    b'.portRead wa = b.portRead wa := by
  unfold Block.portRead
  rw [hc]
  split
  · exact hr _ (ctrlAddr_of_target ‹_›)
  · exact hl _ _ ‹_›
  · rfl

/-! ### Writes -/

theorem portWrite_busy {b : Block} (h : b.status.busy = true) (wa : WordAddr) (v : Word) :
    b.portWrite wa v = { b with status := { b.status with busywr := true } } := by
  simp [Block.portWrite, h]

theorem portWrite_ctrlAddr {b : Block} (h : b.status.busy = false) (r : CtrlName) (v : Word) :
    b.portWrite (ctrlAddr r) v = b.writeCtrl r v := by
  simp [Block.portWrite, h]

theorem portWrite_limbAddr {b : Block} (h : b.status.busy = false) (hc : b.config.Legal)
    {r : WideName} (hr : r.Exists b.config) {j : Nat} (hj : j < b.config.nl) (v : Word) :
    b.portWrite (limbAddr r j) v = b.writeLimb r j v := by
  simp [Block.portWrite, h, target_limbAddr hc hr hj]

/-- Everything a write can do. -/
theorem portWrite_cases (b : Block) (wa : WordAddr) (v : Word) :
    (b.status.busy = true ∧
      b.portWrite wa v = { b with status := { b.status with busywr := true } }) ∨
    (b.status.busy = false ∧
      ((∃ r, wa = ctrlAddr r ∧ b.portWrite wa v = b.writeCtrl r v) ∨
       (∃ r j, wa = limbAddr r j ∧ r.Exists b.config ∧ j < b.config.nl ∧
          b.portWrite wa v = b.writeLimb r j v) ∨
       (target b.config wa = .reserved ∧ b.portWrite wa v = b))) := by
  by_cases hb : b.status.busy = true
  · exact .inl ⟨hb, portWrite_busy hb wa v⟩
  · refine .inr ⟨by simpa using hb, ?_⟩
    rcases ht : target b.config wa with r | ⟨r, j⟩ | _
    · exact .inl ⟨r, ctrlAddr_of_target ht, by simp [Block.portWrite, hb, ht]⟩
    · obtain ⟨ha, he, hj⟩ := limbAddr_of_target ht
      exact .inr (.inl ⟨r, j, ha, he, hj, by simp [Block.portWrite, hb, ht]⟩)
    · exact .inr (.inr ⟨rfl, by simp [Block.portWrite, hb, ht]⟩)

/-- Everything a write to a control register in phase IDLE can do. -/
theorem writeCtrl_cases (b : Block) (r : CtrlName) (v : Word) :
    b.writeCtrl r v = b ∨
    (r = .ctrl ∧ b.writeCtrl r v = { b with ctrl := Ctrl.ofWord v }) ∨
    (r = .status ∧ b.writeCtrl r v = { b with status := b.status.writeOneToClear v }) ∨
    (r = .nbases ∧ b.writeCtrl r v = { b with nbases := clampBases b.config v }) ∨
    (r = .cmd ∧ (∃ i, decode v = .ok i) ∧ b.writeCtrl r v = b.accept v) ∨
    (r = .cmd ∧ (∃ e, decode v = .error e) ∧ b.writeCtrl r v = b.rejectCommand) := by
  cases r <;> simp [Block.writeCtrl, Block.writeCmd]
  rcases decode v with e | i <;> simp

@[simp] theorem portWrite_config (b : Block) (wa : WordAddr) (v : Word) :
    (b.portWrite wa v).config = b.config := by
  obtain ⟨-, h⟩ | ⟨-, ⟨r, -, h⟩ | ⟨r, j, -, -, -, h⟩ | ⟨-, h⟩⟩ := portWrite_cases b wa v
  · simp [h]
  · obtain h' | ⟨-, h'⟩ | ⟨-, h'⟩ | ⟨-, h'⟩ | ⟨-, -, h'⟩ | ⟨-, -, h'⟩ := writeCtrl_cases b r v <;>
      simp [h, h']
  · rw [h, Block.writeLimb]; split <;> simp
  · rw [h]

theorem wide_setWide_self {b : Block} {r : WideName} (l : Limbs)
    (hr : ∀ i, r = .base i → i < b.base.length) : (b.setWide r l).wide r = l := by
  cases r <;> simp_all [Block.setWide, Block.wide]

theorem wide_setWide_other {b : Block} {r r' : WideName} (l : Limbs) (h : r' ≠ r) :
    (b.setWide r l).wide r' = b.wide r' := by
  cases r <;> cases r' <;> simp_all [Block.setWide, Block.wide, List.getD_eq_getElem?_getD]
  rw [List.getElem?_set_ne (fun h' => h h'.symm)]

end Sys2Proof.Machine
end

