-- ==== Sys2Proof/Laws/Flags.lean ====
section
/-! SUPPORT. The bits of the `STATUS` and `CTRL` words (spec/10_state.md rules R32, R33), and what a
change of the flags alone leaves as it was. -/

namespace Sys2Proof.Machine

/-- Bits 6:0 are the flags, bit 7 is 0, and from bit 8 on stands `ERRCODE` (R33). -/
theorem toWord_getLsbD (t : Status) (i : Nat) :
    t.toWord.getLsbD i =
      if i < 8 then
        [t.busy, t.done, t.err, t.busywr, t.prime, t.xneg, t.yneg, false].getD i false
      else t.errcode.getLsbD (i - 8) := by
  rcases Nat.lt_or_ge i 8 with h | h
  · interval_cases i <;>
      simp only [Status.toWord, BitVec.getLsbD_append, BitVec.getLsbD_ofBool] <;> simp
  · simp only [Status.toWord, BitVec.getLsbD_append]
    have e : i - 1 - 1 - 1 - 1 - 1 - 1 - 1 - 1 = i - 8 := by omega
    simp only [show ¬ i < 1 by omega, show ¬ i - 1 < 1 by omega, show ¬ i - 1 - 1 < 1 by omega,
      show ¬ i - 1 - 1 - 1 < 1 by omega, show ¬ i - 1 - 1 - 1 - 1 < 1 by omega,
      show ¬ i - 1 - 1 - 1 - 1 - 1 < 1 by omega, show ¬ i - 1 - 1 - 1 - 1 - 1 - 1 < 1 by omega,
      show ¬ i - 1 - 1 - 1 - 1 - 1 - 1 - 1 < 1 by omega, if_false, e, show ¬ i < 8 by omega]
    simp only [BitVec.getLsbD_zero, ite_eq_left_iff]
    intro h2
    exact (BitVec.getLsbD_of_ge _ _ (by omega)).symm

/-- A word with the bits of R33 is the `STATUS` word. -/
theorem status_word_ext {t : Status} {w : Word}
    (hlow : ∀ i, i < 8 → w.getLsbD i =
      [t.busy, t.done, t.err, t.busywr, t.prime, t.xneg, t.yneg, false].getD i false)
    (hhigh : ∀ i, i < 24 → w.getLsbD (8 + i) = t.errcode.getLsbD i) : t.toWord = w := by
  apply BitVec.eq_of_getLsbD_eq
  intro i hi
  rw [toWord_getLsbD]
  split
  · exact (hlow i ‹_›).symm
  · have := hhigh (i - 8) (by omega)
    rw [show 8 + (i - 8) = i by omega] at this
    exact this.symm

/-- Bits 1:0 are the enables; the rest is 0 (R32). -/
theorem ctrl_toWord_getLsbD (c : Ctrl) (i : Nat) :
    c.toWord.getLsbD i = [c.ieDone, c.ieErr].getD i false := by
  simp only [Ctrl.toWord, BitVec.getLsbD_append, BitVec.getLsbD_ofBool]
  rcases i with _ | _ | i <;> simp

@[simp] theorem statusWord_eq (b : Block) : b.statusWord = b.status.toWord :=
  portRead_ctrlAddr b .status

/-- Where only `STATUS` and `PENDING` differ, only the word at `STATUS` can read differently. -/
theorem keepsOutside_status {b b' : Block} (hc : b'.config = b.config)
    (hw : ∀ r, b'.wide r = b.wide r) (hn : b'.nbases = b.nbases) (ht : b'.ctrl = b.ctrl) :
    b.KeepsOutside atStatus b' := by
  intro wa hwa
  refine portRead_congr wa hc (fun r j _ => by rw [hw]) ?_
  intro r hr
  cases r <;> simp_all [Block.readCtrl, atStatus]

end Sys2Proof.Machine
end

