-- ==== Sys2Proof/Laws/Numbers.lean ====
section
/-! SUPPORT. The number theory of the command functions: what each loop returns, by its invariant
(spec/41_mod_pow_binary_sq.md R102, spec/42_extended_gcd_engine.md R113, R119,
spec/43_miller_rabin_tester.md R132, R133). -/

namespace Sys2Proof.Machine

/-! ### Modular exponentiation -/

theorem lt_two_pow_bitlen (v : Nat) : v < 2 ^ bitlen v := by
  unfold bitlen
  split
  · simp_all
  · exact Nat.lt_log2_self

/-- The loop invariant of R102 (b), with enough fuel for the exponent. -/
theorem modPowLoop_eq {m : Nat} (fuel r b e : Nat) (hr : r < m) (he : e < 2 ^ fuel) :
    modPowLoop fuel r b e m = r * b ^ e % m := by
  induction fuel generalizing r b e with
  | zero =>
    have : e = 0 := by simpa using he
    simp [modPowLoop, this, Nat.mod_eq_of_lt hr]
  | succ fuel ih =>
    unfold modPowLoop
    split
    case isTrue h => simp [h, Nat.mod_eq_of_lt hr]
    case isFalse h =>
      have hm : 0 < m := by omega
      have he' : e / 2 < 2 ^ fuel := by rw [pow_succ] at he; omega
      have hsq : (modMul b b m) ^ (e / 2) ≡ b ^ (2 * (e / 2)) [MOD m] := by
        rw [pow_mul, sq]
        exact (Nat.mod_modEq (b * b) m).pow _
      simp only
      split
      case isTrue hodd =>
        rw [ih (modMul r b m) _ _ (Nat.mod_lt _ hm) he']
        have hee : e = 2 * (e / 2) + 1 := by omega
        have h1 : modMul r b m * (modMul b b m) ^ (e / 2) ≡ r * b * b ^ (2 * (e / 2)) [MOD m] :=
          (Nat.mod_modEq (r * b) m).mul hsq
        have h2 : r * b * b ^ (2 * (e / 2)) = r * b ^ e := by
          conv_rhs => rw [hee, pow_succ]
          ring
        rw [h2] at h1
        exact h1
      case isFalse heven =>
        rw [ih _ _ _ hr he']
        have hee : 2 * (e / 2) = e := by omega
        rw [hee] at hsq
        exact hsq.mul_left r

/-- `ModPow` is exponentiation, `0^0 = 1` included (R100). -/
theorem modPow_eq {m : Nat} (hm : 2 ≤ m) (b e : Nat) : modPow b e m = b ^ e % m := by
  rw [modPow, modPowLoop_eq _ _ _ _ (by omega) (lt_two_pow_bitlen e), one_mul]
  exact (Nat.mod_modEq b m).pow e

/-! ### Euclid -/

theorem gcdLoop_eq (fuel a b : Nat) (h : b ≤ fuel) : gcdLoop fuel a b = Nat.gcd a b := by
  induction fuel generalizing a b with
  | zero => simp [gcdLoop, Nat.le_zero.1 h]
  | succ fuel ih =>
    unfold gcdLoop
    split
    case isTrue hb => simp [hb]
    case isFalse hb =>
      have : a % b < b := Nat.mod_lt _ (by omega)
      rw [ih _ _ (by omega), Nat.gcd_comm a b, Nat.gcd_rec b a, Nat.gcd_comm]

theorem gcd_eq (a b : Nat) : gcd a b = Nat.gcd a b := gcdLoop_eq b a b le_rfl

theorem iterate_r (t : ExtState) : t.iterate.r = t.oldR % t.r := by
  have h := Nat.div_add_mod' t.oldR t.r
  simp only [ExtState.iterate]
  omega

@[simp] theorem iterate_oldR (t : ExtState) : t.iterate.oldR = t.r := rfl
@[simp] theorem iterate_oldX (t : ExtState) : t.iterate.oldX = t.x := rfl
@[simp] theorem iterate_oldY (t : ExtState) : t.iterate.oldY = t.y := rfl
theorem iterate_x (t : ExtState) : t.iterate.x = t.oldX - (t.oldR / t.r : Nat) * t.x := rfl
theorem iterate_y (t : ExtState) : t.iterate.y = t.oldY - (t.oldR / t.r : Nat) * t.y := rfl

/-- A property that the start has and each iteration keeps holds after any number of iterations. -/
theorem extGcdLoop_induction {P : ExtState → Prop} (fuel : Nat) {t : ExtState} (h0 : P t)
    (hstep : ∀ u, P u → u.r ≠ 0 → P u.iterate) : P (extGcdLoop fuel t) := by
  induction fuel generalizing t with
  | zero => exact h0
  | succ fuel ih =>
    unfold extGcdLoop
    split
    · exact h0
    · exact ih (hstep t h0 ‹_›)

/-- Enough fuel: the loop has ended. -/
theorem extGcdLoop_done (fuel : Nat) (t : ExtState) (h : t.r ≤ fuel) :
    (extGcdLoop fuel t).r = 0 := by
  induction fuel generalizing t with
  | zero => simpa [extGcdLoop] using h
  | succ fuel ih =>
    unfold extGcdLoop
    split
    · assumption
    · apply ih
      have : t.oldR % t.r < t.r := Nat.mod_lt _ (by omega)
      rw [iterate_r]; omega

/-- Fuel beyond what is enough changes nothing. -/
theorem extGcdLoop_fuel (fuel fuel' : Nat) (t : ExtState) (h : t.r ≤ fuel) (h' : t.r ≤ fuel') :
    extGcdLoop fuel t = extGcdLoop fuel' t := by
  induction fuel generalizing t fuel' with
  | zero =>
    have : t.r = 0 := by omega
    cases fuel' <;> simp [extGcdLoop, this]
  | succ fuel ih =>
    by_cases hr : t.r = 0
    · cases fuel' <;> simp [extGcdLoop, hr]
    · cases fuel' with
      | zero => omega
      | succ fuel' =>
        have : t.oldR % t.r < t.r := Nat.mod_lt _ (by omega)
        simp only [extGcdLoop, if_neg hr]
        exact ih _ _ (by rw [iterate_r]; omega) (by rw [iterate_r]; omega)

/-- The identities of R113 (a), and the gcd of the remainder pair. -/
def ExtState.Identity (a b : Nat) (t : ExtState) : Prop :=
  (a : Int) * t.oldX + b * t.oldY = t.oldR ∧ (a : Int) * t.x + b * t.y = t.r ∧
  Nat.gcd t.oldR t.r = Nat.gcd a b

theorem init_identity (a b : Nat) : (ExtState.init a b).Identity a b := by
  simp [ExtState.Identity, ExtState.init]

theorem iterate_identity {a b : Nat} {t : ExtState} (h : t.Identity a b) :
    t.iterate.Identity a b := by
  obtain ⟨h1, h2, h3⟩ := h
  refine ⟨h2, ?_, ?_⟩
  · have hr : (t.iterate.r : Int) = t.oldR - (t.oldR / t.r : Nat) * t.r := by
      have h := Nat.div_add_mod' t.oldR t.r
      rw [iterate_r]
      have : (t.oldR / t.r * t.r + t.oldR % t.r : Int) = t.oldR := by exact_mod_cast h
      push_cast at this ⊢
      linarith
    rw [hr, iterate_x, iterate_y, ← h1, ← h2]
    ring
  · rw [iterate_oldR, iterate_r, ← h3, Nat.gcd_comm t.oldR, Nat.gcd_rec t.r t.oldR,
      Nat.gcd_comm]

/-- What `ExtGcd` returns: the gcd and a Bézout pair for it (R112, R113 (a)). -/
theorem extGcd_spec (a b : Nat) :
    (a : Int) * (extGcd a b).x + b * (extGcd a b).y = (extGcd a b).g ∧
    (extGcd a b).g = Nat.gcd a b := by
  have h : (extGcdLoop b (ExtState.init a b)).Identity a b :=
    extGcdLoop_induction b (init_identity a b) fun u hu _ => iterate_identity hu
  have hr := extGcdLoop_done b (ExtState.init a b) le_rfl
  obtain ⟨h1, -, h3⟩ := h
  rw [hr, Nat.gcd_zero_right] at h3
  exact ⟨h1, h3⟩

/-- The invariant behind the bound of R119: the coefficients alternate in sign, and the remainders
weigh their magnitudes to the operands. -/
def ExtState.Weighed (a b : Nat) (t : ExtState) : Prop :=
  (t.oldX * t.x ≤ 0 ∧ t.oldY * t.y ≤ 0) ∧
  (t.oldR * t.x.natAbs + t.r * t.oldX.natAbs = b ∧
   t.oldR * t.y.natAbs + t.r * t.oldY.natAbs = a)

/-- Subtracting a multiple of a number of the other sign adds the magnitudes. -/
theorem natAbs_sub_mul {u v : Int} (q : Nat) (h : u * v ≤ 0) :
    (u - q * v).natAbs = u.natAbs + q * v.natAbs ∧ v * (u - q * v) ≤ 0 := by
  have hq : (0 : Int) ≤ q := Int.natCast_nonneg q
  have hle : v * (u - q * v) ≤ 0 := by nlinarith [mul_self_nonneg v]
  refine ⟨?_, hle⟩
  zify
  rcases le_total 0 u with hu | hu <;> rcases le_total 0 v with hv | hv
  · rcases eq_or_lt_of_le hv with rfl | hv'
    · simp
    · have : u = 0 := by nlinarith
      subst this
      simp [abs_mul, abs_of_nonneg hv]
  · rw [abs_of_nonneg hu, abs_of_nonpos hv, abs_of_nonneg (by nlinarith)]; ring
  · rw [abs_of_nonpos hu, abs_of_nonneg hv, abs_of_nonpos (by nlinarith)]; ring
  · rcases eq_or_lt_of_le hv with rfl | hv'
    · simp
    · have : u = 0 := by nlinarith
      subst this
      simp [abs_mul, abs_of_nonpos hv]

theorem iterate_weighed {a b : Nat} {t : ExtState} (h : t.Weighed a b) :
    t.iterate.Weighed a b := by
  obtain ⟨⟨hx, hy⟩, hb, ha⟩ := h
  obtain ⟨hx1, hx2⟩ := natAbs_sub_mul (t.oldR / t.r) hx
  obtain ⟨hy1, hy2⟩ := natAbs_sub_mul (t.oldR / t.r) hy
  have hr := Nat.div_add_mod' t.oldR t.r
  refine ⟨⟨hx2, hy2⟩, ?_, ?_⟩
  · rw [iterate_oldR, iterate_oldX, iterate_r, iterate_x, hx1, ← hb]
    conv_rhs => rw [← hr]
    ring
  · rw [iterate_oldR, iterate_oldY, iterate_r, iterate_y, hy1, ← ha]
    conv_rhs => rw [← hr]
    ring

/-- Every coefficient has magnitude at most `n`. -/
def ExtState.Bounded (n : Nat) (t : ExtState) : Prop :=
  (t.oldX.natAbs ≤ n ∧ t.x.natAbs ≤ n) ∧ (t.oldY.natAbs ≤ n ∧ t.y.natAbs ≤ n)

theorem extGcdLoop_bounded (a b fuel : Nat) :
    (extGcdLoop fuel (ExtState.init a b)).Bounded (max (max a b) 1) := by
  refine (extGcdLoop_induction (P := fun t => t.Weighed a b ∧ t.Bounded (max (max a b) 1)) fuel
    ?_ ?_).2
  · simp [ExtState.Weighed, ExtState.Bounded, ExtState.init]
  · rintro u ⟨hw, hbd⟩ hr
    have hw' := iterate_weighed hw
    refine ⟨hw', ⟨hbd.1.2, ?_⟩, hbd.2.2, ?_⟩
    · have h := hw'.2.1
      rw [iterate_oldR] at h
      have : u.iterate.x.natAbs ≤ u.r * u.iterate.x.natAbs :=
        Nat.le_mul_of_pos_left _ (by omega)
      omega
    · have h := hw'.2.2
      rw [iterate_oldR] at h
      have : u.iterate.y.natAbs ≤ u.r * u.iterate.y.natAbs :=
        Nat.le_mul_of_pos_left _ (by omega)
      omega

/-- The returned coefficients are no larger than the operands (R119). -/
theorem extGcd_bounded (a b : Nat) :
    (extGcd a b).x.natAbs ≤ max (max a b) 1 ∧ (extGcd a b).y.natAbs ≤ max (max a b) 1 :=
  have h := extGcdLoop_bounded a b b
  ⟨h.1.1, h.2.1⟩

/-! ### The Montgomery inverse -/

/-- `RINV(m)` is the inverse of `2^w` modulo an odd `m ≥ 3` (R92). -/
theorem rinv_spec {m : Nat} (w : Nat) (hm : 2 ≤ m) (hodd : m % 2 = 1) :
    1 ≤ rinv w m ∧ rinv w m < m ∧ rinv w m * 2 ^ w % m = 1 := by
  have hm0 : (0 : Int) < m := by omega
  have hcop : Nat.gcd (2 ^ w) m = 1 := by
    have : Nat.Coprime 2 m := by
      exact Nat.coprime_two_left.2 (Nat.odd_iff.2 hodd)
    exact this.pow_left w
  obtain ⟨hid, hg⟩ := extGcd_spec (2 ^ w) m
  rw [hg, hcop] at hid
  have hnn := Int.emod_nonneg (extGcd (2 ^ w) m).x (ne_of_gt hm0)
  have hlt := Int.emod_lt_of_pos (extGcd (2 ^ w) m).x hm0
  have hcast : (rinv w m : Int) = (extGcd (2 ^ w) m).x % m := Int.toNat_of_nonneg hnn
  have hinv : rinv w m * 2 ^ w % m = 1 := by
    zify
    rw [hcast]
    have h1 : (extGcd (2 ^ w) m).x % (m : Int) * 2 ^ w ≡ (extGcd (2 ^ w) m).x * 2 ^ w [ZMOD m] :=
      (Int.mod_modEq _ _).mul_right _
    have h2 : (extGcd (2 ^ w) m).x * 2 ^ w = 1 + m * (-(extGcd (2 ^ w) m).y) := by
      push_cast at hid
      linarith
    rw [h1, h2, Int.add_mul_emod_self_left]
    exact Int.emod_eq_of_lt (by omega) (by omega)
  refine ⟨?_, by omega, hinv⟩
  by_contra h0
  have : rinv w m = 0 := by omega
  simp [this] at hinv

/-- The Montgomery product by its value: times `2^w` it is the product (R92). -/
theorem montMul_spec {m : Nat} (w a b : Nat) (hm : 2 ≤ m) (hodd : m % 2 = 1) :
    montMul w a b m < m ∧ montMul w a b m * 2 ^ w % m = a * b % m := by
  refine ⟨Nat.mod_lt _ (by omega), ?_⟩
  have hinv : rinv w m * 2 ^ w ≡ 1 [MOD m] := by
    rw [Nat.ModEq, (rinv_spec w hm hodd).2.2, Nat.mod_eq_of_lt (by omega)]
  have h1 : montMul w a b m * 2 ^ w ≡ a * b * rinv w m * 2 ^ w [MOD m] :=
    (Nat.mod_modEq _ _).mul_right _
  have h2 : a * b * (rinv w m * 2 ^ w) ≡ a * b * 1 [MOD m] := hinv.mul_left _
  rw [← mul_assoc, mul_one] at h2
  exact h1.trans h2

/-! ### Miller-Rabin -/

theorem decomposeLoop_spec (fuel d s : Nat) (hd : 0 < d) (hf : d < 2 ^ fuel) :
    2 ^ (decomposeLoop fuel d s).2 * (decomposeLoop fuel d s).1 = 2 ^ s * d ∧
    (decomposeLoop fuel d s).1 % 2 = 1 ∧ s ≤ (decomposeLoop fuel d s).2 ∧
    (d % 2 = 0 → s < (decomposeLoop fuel d s).2) := by
  induction fuel generalizing d s with
  | zero => simp at hf; omega
  | succ fuel ih =>
    unfold decomposeLoop
    split
    case isTrue heven =>
      rw [pow_succ] at hf
      obtain ⟨h1, h2, h3, -⟩ := ih (d / 2) (s + 1) (by omega) (by omega)
      refine ⟨?_, h2, by omega, fun _ => by omega⟩
      rw [h1, pow_succ, mul_assoc]
      congr 1
      omega
    case isFalse hodd => exact ⟨rfl, by omega, le_rfl, fun h => absurd h hodd⟩

/-- `m = 2^s * d` with `d` odd, and `s ≥ 1` for an even `m` (R132). -/
theorem decompose_spec {m : Nat} (hm : 0 < m) :
    2 ^ (decompose m).2 * (decompose m).1 = m ∧ (decompose m).1 % 2 = 1 ∧
    (m % 2 = 0 → 1 ≤ (decompose m).2) := by
  obtain ⟨h1, h2, -, h4⟩ := decomposeLoop_spec (bitlen m) m 0 hm (lt_two_pow_bitlen m)
  exact ⟨by simpa [decompose] using h1, h2, h4⟩

/-- The inner loop finds `n - 1` among the squares of `x` (R133). -/
theorem squareLoop_iff {n : Nat} (hn : 2 ≤ n) (times x : Nat) :
    squareLoop times x n = true ↔ ∃ i, 1 ≤ i ∧ i ≤ times ∧ x ^ (2 ^ i) % n = n - 1 := by
  induction times generalizing x with
  | zero => simp only [squareLoop, Bool.false_eq_true, false_iff]; rintro ⟨i, h1, h2, -⟩; omega
  | succ times ih =>
    have hsq : ∀ i, (x ^ 2 % n) ^ (2 ^ i) % n = x ^ (2 ^ (i + 1)) % n := by
      intro i
      rw [← Nat.pow_mod, ← pow_mul, ← pow_succ']
    simp only [squareLoop, modPow_eq hn]
    split
    case isTrue h => simpa using ⟨1, le_rfl, by omega, h⟩
    case isFalse h =>
      rw [ih]
      constructor
      · rintro ⟨i, h1, h2, h3⟩
        exact ⟨i + 1, by omega, by omega, by rw [← hsq, h3]⟩
      · rintro ⟨i, h1, h2, h3⟩
        obtain ⟨j, rfl⟩ : ∃ j, i = j + 1 := ⟨i - 1, by omega⟩
        rcases Nat.eq_zero_or_pos j with rfl | hj
        · exact absurd (by simpa using h3) h
        · exact ⟨j, hj, by omega, by rw [hsq, h3]⟩

/-- One base passes: the sequence `a^d, a^(2d), …, a^(2^(s-1) d)` starts with 1 or meets `n - 1`
(R133). -/
theorem basePasses_iff {n : Nat} (hn : 2 ≤ n) (d s a : Nat) (hs : 1 ≤ s) :
    basePasses n d s a = true ↔
      a ^ d % n = 1 ∨ ∃ i, i < s ∧ a ^ (d * 2 ^ i) % n = n - 1 := by
  have hpow : ∀ i, (a ^ d % n) ^ (2 ^ i) % n = a ^ (d * 2 ^ i) % n := by
    intro i
    rw [← Nat.pow_mod, ← pow_mul]
  simp only [basePasses, modPow_eq hn]
  split
  case isTrue h =>
    simp only [true_iff]
    rcases h with h | h
    · exact .inl h
    · exact .inr ⟨0, hs, by simpa using h⟩
  case isFalse h =>
    rw [not_or] at h
    rw [squareLoop_iff hn]
    constructor
    · rintro ⟨i, -, h2, h3⟩
      exact .inr ⟨i, by omega, by rw [← hpow, h3]⟩
    · rintro (h1 | ⟨i, h2, h3⟩)
      · exact absurd h1 h.1
      · rcases Nat.eq_zero_or_pos i with rfl | hi
        · exact absurd (by simpa using h3) h.2
        · exact ⟨i, hi, by omega, by rw [hpow, h3]⟩

/-- The verdict is the conjunction of the outcomes of the bases below `n` (R136 (f)). -/
theorem basesLoop_iff (n d s : Nat) (bases : List Nat) :
    basesLoop n d s bases = true ↔ ∀ a ∈ bases, a < n → basePasses n d s a = true := by
  induction bases with
  | nil => simp [basesLoop]
  | cons a rest ih =>
    unfold basesLoop
    split
    case isTrue h => simp [ih, Nat.not_lt.2 h]
    case isFalse h =>
      split
      case isTrue hp => simp [ih, hp]
      case isFalse hp =>
        simp only [Bool.false_eq_true, List.forall_mem_cons, false_iff]
        exact fun hall => hp (hall.1 (by omega))

/-- The verdict past the trivial cases (R130). -/
theorem millerRabin_odd {n : Nat} (hn : 5 ≤ n) (hodd : n % 2 = 1) (bases : List Nat) :
    millerRabin n bases = true ↔
      ∀ a ∈ bases, a < n →
        basePasses n (decompose (n - 1)).1 (decompose (n - 1)).2 a = true := by
  unfold millerRabin
  rw [if_neg (by omega), if_neg (by omega), if_neg (by omega)]
  exact basesLoop_iff _ _ _ _

end Sys2Proof.Machine
end

