-- ==== Sys2Proof/Laws/PerInstr.lean ====
section
/-! SUPPORT. Statements made of every command, one lemma for each constructor. -/

namespace Sys2Proof.Laws.Encoding

/-- The command's word has the fields the format gives it (R70, R75), and both decoders read the
command from it. -/
def Statement (i : Instr) : Prop :=
  zeroField (encode i) = 0 ∧ unitField (encode i) = i.unit.code ∧ funcField (encode i) = i.func ∧
  decode (encode i) = .ok i ∧ decodeTableWord 32 (encode i).toNat = some i

theorem mulmod : Statement .mulmod := by unfold Statement; decide
theorem montmul : Statement .montmul := by unfold Statement; decide
theorem modexp : Statement .modexp := by unfold Statement; decide
theorem gcd : Statement .gcd := by unfold Statement; decide
theorem xgcd : Statement .xgcd := by unfold Statement; decide
theorem modinv : Statement .modinv := by unfold Statement; decide
theorem mrtest : Statement .mrtest := by unfold Statement; decide

theorem all (i : Instr) : Statement i := by
  cases i
  · exact mulmod
  · exact montmul
  · exact modexp
  · exact gcd
  · exact xgcd
  · exact modinv
  · exact mrtest

end Sys2Proof.Laws.Encoding

namespace Sys2Proof

theorem decode_encode (i : Instr) : decode (encode i) = .ok i := (Laws.Encoding.all i).2.2.2.1

theorem isCommand_iff (w : Word) : isCommand w = true ↔ ∃ i, decode w = .ok i := by
  unfold isCommand
  split <;> simp_all

end Sys2Proof
end

