-- ==== Sys2Proof/Laws/Ops.lean ====
section
/-! SUPPORT. What the shared operations and the step can do, each said once, and that every operation
on the block keeps the registers' widths and the block's invariant. -/

namespace Sys2Proof.Machine

/-! ### The command functions, together -/

/-- The function of each command (R41's `f`), in one table. -/
def resultsOf : Instr → Block → Except ErrorKind Results
  | .mulmod => mulmodResults
  | .montmul => montmulResults
  | .modexp => modexpResults
  | .gcd => gcdResults
  | .xgcd => xgcdResults
  | .modinv => modinvResults
  | .mrtest => mrtestResults

/-- Every command is one `Complete` event on what its function returns. -/
theorem exec_eq (i : Instr) (s : State) :
    exec i s = .next (s.complete (resultsOf i s.block)) := by
  cases i <;> rfl

/-- A command raises only what R153 lists for it, and never the codes of R152. -/
theorem resultsOf_error {i : Instr} {b : Block} {k : ErrorKind} (h : resultsOf i b = .error k) :
    (k = .invalidModulus ∧ (i = .mulmod ∨ i = .montmul ∨ i = .modexp ∨ i = .modinv)) ∨
    (k = .noModularInverse ∧ i = .modinv) ∨ (k = .coefOverflow ∧ i = .xgcd) := by
  cases i <;> simp only [resultsOf, mulmodResults, montmulResults, modexpResults, gcdResults,
    xgcdResults, modinvResults, mrtestResults] at h
  all_goals (repeat' split at h)
  all_goals (first | (cases h; simp) | cases h)

/-- A command writes only the results R38 lists for it. -/
theorem resultsOf_writes {i : Instr} {b : Block} {r : Results} (h : resultsOf i b = .ok r) :
    ((r.res1 ≠ none ∨ r.res2 ≠ none ∨ r.xneg ≠ none ∨ r.yneg ≠ none) → i = .xgcd) ∧
    (r.prime ≠ none ↔ i = .mrtest) ∧ (r.res0 ≠ none ↔ i ≠ .mrtest) := by
  cases i <;> simp only [resultsOf, mulmodResults, montmulResults, modexpResults, gcdResults,
    xgcdResults, modinvResults, mrtestResults] at h
  all_goals (repeat' split at h)
  all_goals (first | (cases h; simp) | cases h)

/-! ### The step -/

/-- Everything an edge can do. -/
theorem clockEdge_cases (e : Edge) (s : State) :
    (e.pins.rst = true ∧ s.clockEdge e = .next s.applyReset) ∨
    (e.pins.rst = false ∧ (e.complete = false ∨ s.block.status.busy = false) ∧
      s.clockEdge e = .next (s.portCycle e.pins)) ∨
    (e.pins.rst = false ∧ e.complete = true ∧ s.block.status.busy = true ∧
      ((∃ i, decode s.block.pending = .ok i ∧
          s.clockEdge e = .next ((s.complete (resultsOf i s.block)).portCycle e.pins)) ∨
       (∃ x, decode s.block.pending = .error x ∧
          s.clockEdge e = .fault .pendingNotACommand))) := by
  unfold State.clockEdge State.runPending
  by_cases hr : e.pins.rst = true
  · simp [hr]
  · rcases hc : e.complete with _ | _
    · simp_all
    · rcases hb : s.block.status.busy with _ | _
      · simp_all
      · rcases hd : decode s.block.pending with x | i
        · simp_all
        · simp_all [exec_eq]

/-- A port cycle changes at most the block, by a write, or the words read, by a read. -/
theorem portCycle_cases (p : Pins) (s : State) :
    (p.event = none ∧ s.portCycle p = s) ∨
    (∃ wa, p.event = some (.read wa) ∧
      s.portCycle p = { s with reads := s.reads ++ [s.block.portRead wa] }) ∨
    (∃ wa v, p.event = some (.write wa v) ∧
      s.portCycle p = { s with block := s.block.portWrite wa v }) := by
  unfold State.portCycle
  rcases h : p.event with _ | ⟨wa, v⟩ | ⟨wa⟩
  · simp
  · simp
  · simp [State.rdata, h]

@[simp] theorem portCycle_edges (p : Pins) (s : State) : (s.portCycle p).edges = s.edges := by
  obtain ⟨-, h⟩ | ⟨wa, -, h⟩ | ⟨wa, v, -, h⟩ := portCycle_cases p s <;> simp [h]

@[simp] theorem portCycle_edgeNo (p : Pins) (s : State) : (s.portCycle p).edgeNo = s.edgeNo := by
  obtain ⟨-, h⟩ | ⟨wa, -, h⟩ | ⟨wa, v, -, h⟩ := portCycle_cases p s <;> simp [h]

@[simp] theorem portCycle_config (p : Pins) (s : State) :
    (s.portCycle p).block.config = s.block.config := by
  obtain ⟨-, h⟩ | ⟨wa, -, h⟩ | ⟨wa, v, -, h⟩ := portCycle_cases p s <;> simp [h]

theorem step_legal {s : State} (h : s.block.config.Legal) :
    step s = s.advance.clockEdge s.nextEdge := by
  simp only [step, State.stepEdge, if_pos h]

theorem step_next_legal {s t : State} (h : step s = .next t) : s.block.config.Legal := by
  by_contra hn
  simp only [step, State.stepEdge, if_neg hn] at h
  cases h

/-- Everything a step that goes on can do: reset; a port cycle with no `Complete`; or the `Complete`
of the command in flight and then the port cycle. -/
theorem step_cases {s t : State} (h : step s = .next t) :
    s.block.config.Legal ∧
    ((s.nextEdge.pins.rst = true ∧ t = s.advance.applyReset) ∨
     (s.nextEdge.pins.rst = false ∧ (s.nextEdge.complete = false ∨ s.block.status.busy = false) ∧
        t = s.advance.portCycle s.nextEdge.pins) ∨
     (s.nextEdge.pins.rst = false ∧ s.nextEdge.complete = true ∧ s.block.status.busy = true ∧
        ∃ i, decode s.block.pending = .ok i ∧
          t = (s.advance.complete (resultsOf i s.block)).portCycle s.nextEdge.pins)) := by
  have hl := step_next_legal h
  refine ⟨hl, ?_⟩
  rw [step_legal hl] at h
  obtain ⟨hr, hc⟩ | ⟨hr, hb, hc⟩ | ⟨hr, he, hb, ⟨i, hi, hc⟩ | ⟨x, hx, hc⟩⟩ :=
      clockEdge_cases s.nextEdge s.advance <;> rw [hc] at h <;> cases h
  · exact .inl ⟨hr, rfl⟩
  · exact .inr (.inl ⟨hr, hb, rfl⟩)
  · exact .inr (.inr ⟨hr, he, hb, i, hi, rfl⟩)

/-! ### Runs -/

/-- A run goes on from where its first step leads. -/
theorem run_of_step {k : Nat} {s u : State} (h : step s = .next u) :
    Host.Core.run core (k + 1) s = Host.Core.run core k u := by
  have h' : core.step s = .next u := h
  exact (Host.Core.run.eq_2 core s k).trans (by rw [h'])

/-- A run that ends in a next state began with a step that did. -/
theorem run_succ_cases {k : Nat} {s t : State} (h : Host.Core.run core (k + 1) s = .next t) :
    ∃ u, step s = .next u ∧ Host.Core.run core k u = .next t := by
  rcases hs : step s with u | f | r
  · exact ⟨u, rfl, (run_of_step hs).symm.trans h⟩
  all_goals
    have h' : core.step s = _ := hs
    have := (Host.Core.run.eq_2 core s k).symm.trans h
    rw [h'] at this
    cases this

/-! ### The registers keep their widths -/

theorem writeLimb_shape {b : Block} (r : WideName) (j : Nat) (v : Word) (h : b.Shape) :
    (b.writeLimb r j v).Shape := by
  unfold Block.writeLimb
  split
  · obtain ⟨ho, hr, ⟨hlen, hall⟩, hn⟩ := h
    cases r with
    | base i =>
      refine ⟨ho, hr, ⟨by simpa [Block.setWide] using hlen, ?_⟩, hn⟩
      intro l hl
      by_cases hi : i < b.base.length
      · rcases List.mem_or_eq_of_mem_set hl with hl | rfl
        · exact hall l hl
        · simp only [List.length_set, Block.wide, Block.setWide]
          rw [List.getD_eq_getElem?_getD, List.getElem?_eq_getElem hi]
          exact hall _ (List.getElem_mem hi)
      · have : b.base.set i ((b.wide (.base i)).set j v) = b.base :=
          List.set_eq_of_length_le (by omega)
        simp only [Block.setWide, this] at hl
        exact hall l hl
    | _ => simp_all [Block.setWide, Block.wide, Block.Shape]
  · exact h

theorem clampBases_le (c : Config) (hc : c.Legal) (v : Word) :
    (clampBases c v).toNat ≤ c.nbMax := by
  have := hc.2.2
  simp only [clampBases, BitVec.toNat_ofNat]
  omega

theorem storeResult_length {nl : Nat} (v : Option Nat) {old : Limbs} (h : old.length = nl) :
    (storeResult nl v old).length = nl := by
  cases v <;> simp [storeResult, h]

theorem complete_shape {b : Block} (o : Except ErrorKind Results) (h : b.Shape) :
    (b.complete o).Shape := by
  cases o with
  | error k => exact h
  | ok r =>
    obtain ⟨ho, ⟨h0, h1, h2⟩, hb⟩ := h
    exact ⟨ho, ⟨storeResult_length _ h0, storeResult_length _ h1, storeResult_length _ h2⟩, hb⟩

theorem resetFor_shape (c : Config) (hc : c.Legal) : (Block.resetFor c).Shape := by
  refine ⟨by simp [Block.resetFor], by simp [Block.resetFor], ⟨by simp [Block.resetFor], ?_⟩, ?_⟩
  · intro l hl
    simp only [Block.resetFor, List.mem_map] at hl
    obtain ⟨i, -, rfl⟩ := hl
    simp [Block.resetFor]
  · exact hc.2.1

/-! ### The block's invariant -/

theorem resetFor_wf {c : Config} (hc : c.Legal) : (Block.resetFor c).WF :=
  ⟨hc, resetFor_shape c hc, by simp [Status.reset, Status.Consistent], by simp [Status.reset]⟩

theorem complete_wf {b : Block} {i : Instr} (h : b.WF) (hbusy : b.status.busy = true) :
    (b.complete (resultsOf i b)).WF := by
  obtain ⟨hc, hs, ⟨hb, -, -, he, -⟩, -⟩ := h
  obtain ⟨hd, hne⟩ := hb hbusy
  have h0 := he.1 hne
  refine ⟨by simpa using hc, complete_shape _ hs, ?_, by simp⟩
  rcases hr : resultsOf i b with k | r
  · obtain ⟨rfl, -⟩ | ⟨rfl, -⟩ | ⟨rfl, -⟩ := resultsOf_error hr <;>
      simp [Status.Consistent, hd, ErrorKind.code]
  · simp [Status.Consistent, hne, h0]

theorem portWrite_wf {b : Block} (wa : WordAddr) (v : Word) (h : b.WF) : (b.portWrite wa v).WF := by
  obtain ⟨hc, hs, ht, hp⟩ := h
  obtain ⟨hb, h⟩ | ⟨hb, ⟨r, -, h⟩ | ⟨r, j, -, -, -, h⟩ | ⟨-, h⟩⟩ := portWrite_cases b wa v
  · rw [h]; exact ⟨hc, hs, ht, hp⟩
  · obtain h' | ⟨-, h'⟩ | ⟨-, h'⟩ | ⟨-, h'⟩ | ⟨-, hi, h'⟩ | ⟨-, -, h'⟩ := writeCtrl_cases b r v <;>
      rw [h, h']
    · exact ⟨hc, hs, ht, hp⟩
    · exact ⟨hc, hs, ht, hp⟩
    · refine ⟨hc, hs, ?_, by simpa using hp⟩
      obtain ⟨h1, h2, h3, h4, h5⟩ := ht
      rcases hv : v.getLsbD 2 <;> simp_all [Status.Consistent]
    · obtain ⟨ho, hr, hbase, -⟩ := hs
      exact ⟨hc, ⟨ho, hr, hbase, clampBases_le _ hc v⟩, ht, hp⟩
    · exact ⟨hc, hs, by simp [Status.Consistent], fun _ => (isCommand_iff v).2 hi⟩
    · exact ⟨hc, hs, by simp [Status.Consistent, hb], by simp [hb]⟩
  · rw [h]
    exact ⟨by simpa using hc, writeLimb_shape r j v hs, by simpa using ht, by simp [hb]⟩
  · rw [h]; exact ⟨hc, hs, ht, hp⟩

theorem portCycle_wf {s : State} (p : Pins) (h : s.block.WF) : (s.portCycle p).block.WF := by
  obtain ⟨-, h'⟩ | ⟨wa, -, h'⟩ | ⟨wa, v, -, h'⟩ := portCycle_cases p s <;> rw [h']
  · exact h
  · exact h
  · exact portWrite_wf wa v h

end Sys2Proof.Machine
end

