-- ==== Sys2Proof/Laws/Session.lean ====
section
/-! SUPPORT. What one edge of a host program's run can do, said once (spec/30_encoding.md rules R78 to
R80), and the small lemmas of the host's state. -/

namespace Sys2Proof.Machine

/-! ### The host's state -/

section
variable (h : HostState) (n : Nat) (t : Option HostVar) (v : Int)

@[simp] theorem goLine_line : (h.goLine n).line = n := rfl
@[simp] theorem goLine_part : (h.goLine n).part = 0 := rfl
@[simp] theorem goLine_acc : (h.goLine n).acc = 0 := rfl
@[simp] theorem goLine_env : (h.goLine n).env = h.env := rfl
@[simp] theorem next_line : h.next.line = h.line + 1 := rfl
@[simp] theorem next_part : h.next.part = 0 := rfl
@[simp] theorem next_acc : h.next.acc = 0 := rfl
@[simp] theorem next_env : h.next.env = h.env := rfl
@[simp] theorem bind_none : h.bind none v = h := rfl
@[simp] theorem bind_line : (h.bind t v).line = h.line := by cases t <;> rfl
@[simp] theorem bind_part : (h.bind t v).part = h.part := by cases t <;> rfl
@[simp] theorem bind_acc : (h.bind t v).acc = h.acc := by cases t <;> rfl

end

/-- A bound variable has its value. -/
theorem bind_lookup_self (h : HostState) (t : HostVar) (v : Int) :
    (h.bind (some t) v).env.lookup t = some v := by
  simp [HostState.bind]

/-- A binding leaves the other variables. -/
theorem bind_lookup_other (h : HostState) {t t' : HostVar} (v : Int) (ht : t' ≠ t) :
    (h.bind (some t) v).env.lookup t' = h.env.lookup t' := by
  simp only [HostState.bind, List.lookup_cons, beq_eq_false_iff_ne.2 ht]
  induction h.env with
  | nil => rfl
  | cons a l ih =>
    obtain ⟨k, w⟩ := a
    by_cases hk : k = t
    · subst hk
      simpa [List.lookup_cons, beq_eq_false_iff_ne.2 ht] using ih
    · simp only [List.filter_cons, decide_eq_true_eq, ne_eq, hk, not_false_eq_true, if_true,
        List.lookup_cons]
      split
      · rfl
      · exact ih

/-- The check says what `Exists` says. -/
@[simp] theorem present_iff (c : Config) (r : WideName) : r.present c = true ↔ r.Exists c := by
  cases r <;> simp [WideName.present, WideName.Exists]

/-- A value that fits is read as itself. -/
theorem unsigned_of_eval {env : HostEnv} {e : HostExpr} {k v : Nat}
    (h : e.eval env = some (v : Int)) (hv : v < 2 ^ k) : e.unsigned env k = some v := by
  have hv' : (v : Int) < 2 ^ k := by exact_mod_cast hv
  simp [HostExpr.unsigned, h, hv']

@[simp] theorem event_pins (e : PortEvent) : e.pins.event = some e := by cases e <;> rfl
@[simp] theorem rst_pins (e : PortEvent) : e.pins.rst = false := by cases e <;> rfl

/-! ### One edge -/

/-- The block after the `Complete` of an edge, if the edge takes it (R41). -/
def Block.settle (complete : Bool) (b : Block) : Block :=
  if complete && b.status.busy then
    match decode b.pending with
    | .ok i => b.complete (resultsOf i b)
    | .error _ => b
  else b

@[simp] theorem settle_false (b : Block) : b.settle false = b := by simp [Block.settle]

theorem settle_idle {b : Block} (c : Bool) (h : b.status.busy = false) : b.settle c = b := by
  simp [Block.settle, h]

theorem settle_true {b : Block} {i : Instr} (hb : b.status.busy = true)
    (hd : decode b.pending = .ok i) : b.settle true = b.complete (resultsOf i b) := by
  simp [Block.settle, hb, hd]

@[simp] theorem settle_config (c : Bool) (b : Block) : (b.settle c).config = b.config := by
  unfold Block.settle
  split
  · split <;> simp
  · rfl

/-- An edge without reset: `Complete`, then the port event. -/
theorem clockEdge_settle {e : Edge} {s : State} (hs : s.Inv) (hr : e.pins.rst = false) :
    s.clockEdge e =
      .next (State.portCycle e.pins { s with block := s.block.settle e.complete }) := by
  obtain ⟨h, -⟩ | ⟨-, hc, h⟩ | ⟨-, hc, hb, ⟨i, hi, h⟩ | ⟨x, hx, -⟩⟩ := clockEdge_cases e s
  · simp [hr] at h
  · rw [h]
    rcases hc with hc | hc
    · rw [hc, settle_false]
    · rw [settle_idle _ hc]
  · rw [h, hc, settle_true hb hi]
    rfl
  · obtain ⟨i, hi⟩ := (isCommand_iff _).1 (hs.2.2.2 hb)
    rw [hx] at hi
    cases hi

theorem step_keeps_inv {s t : State} (hs : s.Inv) (h : step s = .next t) : t.Inv := by
  obtain ⟨hl, ⟨-, rfl⟩ | ⟨-, -, rfl⟩ | ⟨-, -, hb, i, -, rfl⟩⟩ := step_cases h
  · exact resetFor_wf hl
  · exact portCycle_wf _ hs
  · exact portCycle_wf _ (complete_wf hs hb)

/-- Everything one edge of a program's run can do, by what the host presents. -/
theorem session_step {x : Session} (hx : x.machine.Inv) (p : HostProgram) (c : Bool) :
    ∃ y, x.step p c = .next y ∧ y.machine.Inv ∧
      y.machine.block.config = x.machine.block.config ∧
      ((x.host.pins x.machine.block.config p).rst = true →
        y.machine.block = Block.resetFor x.machine.block.config ∧ y.trace = x.trace ∧
        ∃ w, y.host = x.host.after x.machine.block.config p w) ∧
      ((x.host.pins x.machine.block.config p).rst = false →
        ((x.host.pins x.machine.block.config p).event = none →
          y.machine.block = x.machine.block.settle c ∧ y.trace = x.trace ∧
          ∃ w, y.host = x.host.after x.machine.block.config p w) ∧
        (∀ wa v, (x.host.pins x.machine.block.config p).event = some (.write wa v) →
          y.machine.block = (x.machine.block.settle c).portWrite wa v ∧
          y.trace = x.trace ++ [⟨.write wa v, none⟩] ∧
          ∃ w, y.host = x.host.after x.machine.block.config p w) ∧
        (∀ wa, (x.host.pins x.machine.block.config p).event = some (.read wa) →
          y.machine.block = x.machine.block.settle c ∧
          y.trace = x.trace ++ [⟨.read wa, some (y.machine.block.portRead wa)⟩] ∧
          y.host = x.host.after x.machine.block.config p (y.machine.block.portRead wa))) := by
  have hstep : ∀ t, step { x.machine with edges := [x.edge p c] } = .next t →
      x.step p c = .next
        { host := x.host.after x.machine.block.config p (t.reads.getLastD 0)
          machine := t
          trace := x.trace ++ record (x.edge p c).pins (t.reads.getLastD 0) } := by
    intro t ht
    simp [Session.step, ht]
  have hlegal : step { x.machine with edges := [x.edge p c] } =
      State.clockEdge (x.edge p c)
        { x.machine with edges := [], edgeNo := x.machine.edgeNo + 1 } := step_legal hx.1
  have hpins : (x.edge p c).pins = x.host.pins x.machine.block.config p := rfl
  by_cases hr : (x.host.pins x.machine.block.config p).rst = true
  · have h : step { x.machine with edges := [x.edge p c] } = .next (State.applyReset
        { x.machine with edges := [], edgeNo := x.machine.edgeNo + 1 }) := by
      rw [hlegal, State.clockEdge, hpins, if_pos hr]
    refine ⟨_, hstep _ h, resetFor_wf hx.1, rfl, fun _ => ⟨rfl, ?_, _, rfl⟩, fun h => ?_⟩
    · simp [hpins, record, Pins.event, hr]
    · simp [hr] at h
  · have hr : (x.host.pins x.machine.block.config p).rst = false := by simpa using hr
    have h := clockEdge_settle (e := x.edge p c)
      (s := { x.machine with edges := [], edgeNo := x.machine.edgeNo + 1 }) hx hr
    rw [← hlegal] at h
    refine ⟨_, hstep _ h, step_keeps_inv (s := { x.machine with edges := [x.edge p c] }) hx h, ?_,
      fun h => ?_, fun _ => ⟨fun he => ?_, fun wa v he => ?_, fun wa he => ?_⟩⟩
    · simp
    · simp [hr] at h
    · refine ⟨?_, ?_, _, rfl⟩
      · simp [State.portCycle, he, Session.edge]
      · simp [hpins, record, he]
    · refine ⟨?_, ?_, _, rfl⟩
      · simp [State.portCycle, he, Session.edge]
      · simp [hpins, record, he]
    · simp only [hpins, State.portCycle, record, he, State.rdata]
      simp [Session.edge]

/-- A run goes on from where its first edge leads. -/
theorem session_run_cons {p : HostProgram} {c : Bool} {ps : List Bool} {x y : Session}
    (h : x.step p c = .next y) : Session.run p (c :: ps) x = Session.run p ps y := by
  simp [Session.run, h]

end Sys2Proof.Machine
end

