-- ==== Sys2Proof/Tests/Slice0.lean ====
section
/-! SUPPORT. Tests: ill-formed terms the checks refuse, words written out bit by bit, one-step vectors
of spec/95_test_vectors.md (its ids in the names), and for each statement that has hypotheses a state
that meets them. -/

namespace Sys2Proof.Tests

open Machine

/-! ### Small states -/

/-- A block with `W = 32`, `NB_MAX = 16`, as reset leaves it but for its operands. -/
def withOperands (a b m : Nat) : Block :=
  { Block.resetFor Config.atReset with
    opa := natToLimbs 1 a, opb := natToLimbs 1 b, opm := natToLimbs 1 m }

/-- The same block with its active bases replaced. -/
def withBases (n : Nat) (bases : List Nat) : Block :=
  { withOperands n 0 0 with
    nbases := BitVec.ofNat 8 bases.length
    base := (List.range 16).map fun i => natToLimbs 1 (bases.getD i 0) }

/-- A machine around a block, with some edges to come. -/
def machine (b : Block) (es : List Edge) : State :=
  { block := b, edges := es, reads := [], edgeNo := 0 }

/-- The machine with a command in flight. -/
def inFlight (i : Instr) (b : Block) (es : List Edge) : State := machine (b.accept (encode i)) es

/-- An edge with a port event. -/
def edge (e : PortEvent) (complete : Bool) : Edge := { pins := e.pins, complete := complete }

/-- What a run shows of the end of one command: `STATUS` and the three results. -/
def ends (i : Instr) (b : Block) : Option (Word × Nat × Nat × Nat) :=
  match step ((machine b []).withFetchWord 32 (encode i).toNat) with
  | .next t =>
    some (t.block.status.toWord, t.block.value .res0, t.block.value .res1, t.block.value .res2)
  | _ => none

/-- R80's example: `WR OPA, 23 ; WR OPB, 7 ; WR OPM, 10403 ; MODEXP ; WAIT ; RD RES0 -> c`. -/
def exampleProgram : HostProgram :=
  [.wrWide .opa (.num 23), .wrWide .opb (.num 7), .wrWide .opm (.num 10403), .command .modexp, .wait,
    .rdWide .res0 (some 0)]

/-! ### The checks refuse ill-formed terms (R6, R7, R23, R57) -/

theorem test_width_zero_refused : ¬ Config.Legal { nl := 0, nbMax := 16 } := by decide
theorem test_width_above_4096_refused : ¬ Config.Legal { nl := 129, nbMax := 16 } := by decide
theorem test_table_of_6_refused : ¬ Config.Legal { nl := 1, nbMax := 6 } := by decide
theorem test_table_of_65_refused : ¬ Config.Legal { nl := 1, nbMax := 65 } := by decide
/-- The ends of the ranges; also the witness of `ResetState` and `ResetMeetsInvariant`. -/
theorem test_parameter_ends_legal :
    Config.Legal { nl := 1, nbMax := 7 } ∧ Config.Legal { nl := 128, nbMax := 64 } := by decide
theorem test_base_past_the_table_refused : ¬ WideName.Exists Config.atReset (.base 16) := by decide
theorem test_write_past_the_table_refused :
    ¬ HostProgram.WellFormed Config.atReset [.wrWide (.base 16) (.num 0)] := by decide
theorem test_read_past_the_table_refused :
    ¬ HostProgram.WellFormed Config.atReset [.rdWide (.base 16) none] := by decide
theorem test_jump_to_no_label_refused :
    ¬ HostProgram.WellFormed Config.atReset [.goto 0, .label 1] := by decide
theorem test_label_twice_refused :
    ¬ HostProgram.WellFormed Config.atReset
      [.label 0, .ifGoto (.eq (.num 0) (.num 1)) 0, .label 0] := by decide
/-- A value of `W + 1` bits is no number of a wide register: `WR` writes no limb of it (R57). -/
theorem test_wide_value_of_2_to_W_not_written :
    HostLine.event Config.atReset (HostState.start []) (.wrWide .opa (.num (2 ^ 32))) = none := by
  decide
/-- `BASE[i]` with `i ≥ NB_MAX` is no register: no line reaches another address for it. -/
theorem test_base_past_the_table_not_accessed :
    ∀ i ∈ [16, 104, 112],
      HostLine.event Config.atReset (HostState.start []) (.wrWide (.base i) (.num 0)) = none ∧
      HostLine.event Config.atReset (HostState.start []) (.rdWide (.base i) none) = none := by decide
theorem test_illegal_parameters_refused :
    step (State.resetFor { nl := 0, nbMax := 16 }) = .refused .parameterOutOfRange := by rfl

/-! ### Decoding: bits 31:8 zero, 7:4 the unit, 3:0 the function (R70, R75) -/

theorem test_word_mulmod : decode 0b000000000000000000000000_0001_0000 = .ok .mulmod := by decide
theorem test_word_montmul : decode 0b000000000000000000000000_0001_0001 = .ok .montmul := by decide
theorem test_word_modexp : decode 0b000000000000000000000000_0010_0000 = .ok .modexp := by decide
theorem test_word_gcd : decode 0b000000000000000000000000_0011_0000 = .ok .gcd := by decide
theorem test_word_xgcd : decode 0b000000000000000000000000_0011_0001 = .ok .xgcd := by decide
theorem test_word_modinv : decode 0b000000000000000000000000_0011_0010 = .ok .modinv := by decide
theorem test_word_mrtest : decode 0b000000000000000000000000_0100_0000 = .ok .mrtest := by decide
theorem test_word_zero_is_illegal : decode 0 = .error .unitReserved := by decide
theorem test_word_unit_15_is_illegal : decode 0xF0 = .error .unitReserved := by decide
theorem test_word_modinv_plus_1_is_illegal : decode 0x33 = .error .funcUnused := by decide
theorem test_word_bit_8_is_illegal : decode 0x110 = .error .zeroFieldNotZero := by decide
theorem test_word_bit_31_is_illegal : decode 0x80000040 = .error .zeroFieldNotZero := by decide
theorem test_table_word_bit_32_is_no_command :
    decodeTableWord 40 0x0100000010 = none ∧ decodeTableWord 40 0x10 = some .mulmod := by decide

/-! ### One step of each command (spec/95_test_vectors.md section 2) -/

theorem test_mulmod_M10_product_not_cut :
    ends .mulmod (withOperands 0xFFFFFFFF 0xFFFFFFFF 0xFFFFFFFE) = some (0x2, 1, 0, 0) := by
  decide +kernel
theorem test_mulmod_M11_modulus_1 :
    ends .mulmod (withOperands 3 4 1) = some (0x104, 0, 0, 0) := by decide +kernel
theorem test_montmul_K1 :
    ends .montmul (withOperands 23 7 10403) = some (0x2, 3928, 0, 0) := by decide +kernel
theorem test_montmul_K20_even_modulus :
    ends .montmul (withOperands 3 4 2) = some (0x104, 0, 0, 0) := by decide +kernel
theorem test_modexp_E21_full_width :
    ends .modexp (withOperands 0xFFFFFFFF 0xFFFFFFFF 0xFFFFFFFB) = some (0x2, 1024, 0, 0) := by
  decide +kernel
theorem test_modexp_E7_zero_to_the_zero :
    ends .modexp (withOperands 0 0 5) = some (0x2, 1, 0, 0) := by decide +kernel
theorem test_gcd_X5 : ends .gcd (withOperands 240 46 0) = some (0x2, 2, 0, 0) := by decide +kernel
theorem test_gcd_X10_zero_first : ends .gcd (withOperands 0 5 0) = some (0x2, 5, 0, 0) := by
  decide +kernel
theorem test_xgcd_X1_negative_x :
    ends .xgcd (withOperands 7 10200 0) = some (0x22, 1, 1457, 1) := by decide +kernel
theorem test_xgcd_X22_negative_y :
    ends .xgcd (withOperands 0xFFFFFFFF 2 0) = some (0x42, 1, 1, 0x7FFFFFFF) := by decide +kernel
theorem test_modinv_I1_negative_x_normalised :
    ends .modinv (withOperands 7 10200 0) = some (0x2, 8743, 0, 0) := by decide +kernel
theorem test_modinv_I3_no_inverse :
    ends .modinv (withOperands 6 10200 0) = some (0x304, 0, 0, 0) := by decide +kernel
theorem test_mrtest_T23_strong_pseudoprime_to_2 :
    ends .mrtest (withOperands 2047 0 0) = some (0x2, 0, 0, 0) := by decide +kernel
theorem test_mrtest_B16_strong_liar :
    ends .mrtest (withBases 221 [174]) = some (0x12, 0, 0, 0) := by decide +kernel

/-- Operands of two limbs: M15, `W = 64`. -/
theorem test_mulmod_M15_two_limbs :
    (mulmodResults
      { Block.resetFor { nl := 2, nbMax := 16 } with
        opa := [0x9ABCDEF0, 0x12345678], opb := [0x76543210, 0xFEDCBA98]
        opm := [0xFFFFFFC5, 0xFFFFFFFF] }) =
      .ok { res0 := some 0x50B76B7E000293C2 } := by decide +kernel

/-! ### The port (R30 to R36, R53 to R63) -/

/-- R31's example: `W = 64`, `NB_MAX = 16`. -/
theorem test_config_word : configWord { nl := 2, nbMax := 16 } = 0x00001002 := by decide
/-- R54's example, for `W = 64`. -/
theorem test_limb_addresses : limbAddr .opm 1 = 0x0501 ∧ limbAddr (.base 3) 0 = 0x0D80 := by decide
/-- R34's example. -/
theorem test_status_acknowledged :
    ({ Status.reset with err := true, errcode := 3 } : Status).toWord = 0x304 ∧
    (({ Status.reset with err := true, errcode := 3 } : Status).writeOneToClear 0x4).toWord = 0 := by
  decide
/-- R80's example: the events of a host program, with `Complete` at the second poll. -/
theorem test_host_program_events :
    HostProgram.WellFormed Config.atReset exampleProgram ∧
    (match Session.run exampleProgram [false, false, false, false, false, true, false]
        (Session.start [] State.reset) with
      | .next y => some (y.host.env, y.trace)
      | _ => none) = some
    ([(0, 6771)],
      [⟨.write 0x0400 0x00000017, none⟩, ⟨.write 0x0480 0x00000007, none⟩,
        ⟨.write 0x0500 0x000028A3, none⟩, ⟨.write 0x0004 0x00000020, none⟩,
        ⟨.read 0x0003, some 0x1⟩, ⟨.read 0x0003, some 0x2⟩,
        ⟨.read 0x0580, some 0x00001A73⟩]) := by decide +kernel
/-- R44: with reset's bases the machine's first command can be MRTEST of `OPA = 0`. -/
theorem test_first_command_after_reset :
    (match step (State.reset.withFetchWord 32 0x40) with
      | .next t => some t.block.status.toWord
      | _ => none) = some 0x2 := by decide
/-- An illegal word in the place of a command is an error at once, and the step after it is idle. -/
theorem test_illegal_word_placed :
    (match step (State.reset.withFetchWord 32 0) with
      | .next t => some t.block.status.toWord
      | _ => none) = some 0x504 := by decide
/-- R63: a read of `STATUS` at the edge of the `Complete` returns the committed word. -/
theorem test_read_at_the_edge_of_complete :
    (match step (inFlight .gcd (withOperands 6 4 0) [edge (.read 0x0003) true]) with
      | .next t => t.reads
      | _ => []) = [0x2] := by decide
/-- R61: a write to an operand while a command is in flight sets `BUSYWR` and is lost. -/
theorem test_write_in_flight_discarded :
    (match step (inFlight .gcd (withOperands 6 4 0) [edge (.write 0x0400 9) false]) with
      | .next t => some (t.block.status.toWord, t.block.opaVal)
      | _ => none) = some (0x9, 6) := by decide
/-- R180: reset at an edge wins over the `Complete` and the port event of that edge. -/
theorem test_reset_wins :
    (match step (inFlight .gcd (withOperands 6 4 0)
        [{ pins := { rst := true, sel := true, we := true, waddr := 0x0400, wdata := 9 }
           complete := true }]) with
      | .next t => some t.block
      | _ => none) = some (Block.resetFor Config.atReset) := by decide

/-! ### Witnesses: states that meet a statement's hypotheses -/

theorem withOperands_wf (a b m : Nat) : (withOperands a b m).WF := by
  obtain ⟨hc, ⟨-, hr, hb⟩, ht⟩ := resetFor_wf (c := Config.atReset) (by decide)
  exact ⟨hc, ⟨⟨natToLimbs_length 1 a, natToLimbs_length 1 b, natToLimbs_length 1 m⟩, hr, hb⟩, ht⟩
theorem withBases_wf (n : Nat) (bases : List Nat) (h : bases.length ≤ 16) :
    (withBases n bases).WF := by
  obtain ⟨hc, ⟨ho, hr, -⟩, ht⟩ := withOperands_wf n 0 0
  refine ⟨hc, ⟨ho, hr, ⟨by simp [withBases, withOperands, Config.atReset], ?_⟩, ?_⟩, ht⟩
  · intro l hl
    simp only [withBases, List.mem_map] at hl
    obtain ⟨i, -, rfl⟩ := hl
    exact natToLimbs_length 1 _
  · simp only [withBases, withOperands, resetFor_config, Config.atReset, BitVec.toNat_ofNat]
    omega
theorem inFlight_inv (i : Instr) {b : Block} (h : b.WF) (es : List Edge) :
    (inFlight i b es).Inv :=
  ⟨h.1, h.2.1, by simp [inFlight, machine, Status.Consistent],
    fun _ => (isCommand_iff _).2 ⟨i, decode_encode i⟩⟩
theorem idle_inv (a b m : Nat) : (machine (withOperands a b m) []).Inv :=
  withOperands_wf a b m
theorem quiet_completes (i : Instr) (b : Block) : (inFlight i b []).CompletesNow i :=
  ⟨rfl, rfl, rfl, decode_encode i⟩

theorem witness_UnlistedWordsAreIllegal :
    ([0, 0x0F, 0x12, 0x21, 0x33, 0x41, 0x50, 0xF0, 0x110, 0xFFFFFFFF] : List Word).all
      (fun v => opcodeMap.all fun r => v ≠ r.pattern) = true := by decide
theorem witness_IllegalCommandReport :
    (withOperands 6 4 7).config.Legal ∧ (∀ i, (0x12 : Word) ≠ encode i) ∧
    (machine ((withOperands 6 4 7).portWrite (ctrlAddr .cmd) 0x12) []).nextEdge.pins.rst = false := by
  refine ⟨by decide, ?_, rfl⟩
  intro i
  cases i <;> decide
theorem witness_ResetWinsAtAnyEdge :
    (inFlight .modexp (withOperands 6 4 7) [⟨resetPins, true⟩]).block.config.Legal ∧
    (inFlight .modexp (withOperands 6 4 7) [⟨resetPins, true⟩]).nextEdge.pins.rst = true := by decide
/-- For `StepKeepsInvariant`, `StepGoesOn` and `IdentificationIsConstant`. -/
theorem witness_StepKeepsInvariant :
    (inFlight .gcd (withOperands 6 4 7) []).Inv ∧
    ∃ t, step (inFlight .gcd (withOperands 6 4 7) []) = .next t :=
  ⟨inFlight_inv _ (withOperands_wf 6 4 7) _, ⟨_, rfl⟩⟩
/-- An idle block and one with a command in flight, both meeting the invariant: for the clauses of
`WritesWhileBusyAreDiscarded`, `RegReadReturnsTheNumber`, `CtrlRegister`, `StatusWriteOneToClear`,
`NbasesIsClamped`, `IrqIsALevel`, `AcceptStartsTheCommand` and the first part of
`CommandsAreAllOrNothing`. -/
theorem witness_idle_and_busy (i : Instr) :
    ((withOperands 6 4 7).WF ∧ (withOperands 6 4 7).status.busy = false ∧
      WideName.Exists (withOperands 6 4 7).config (.base 15)) ∧
    ((inFlight i (withOperands 6 4 7) []).Inv ∧
      (inFlight i (withOperands 6 4 7) []).block.status.busy = true) :=
  ⟨⟨withOperands_wf 6 4 7, rfl, by decide⟩, inFlight_inv _ (withOperands_wf 6 4 7) _, rfl⟩
theorem witness_StatusConsistentWhereverReached : State.reset.Reachable :=
  ⟨Config.atReset, [], 0, by decide, rfl⟩

/-- The ends of the windows: the last limb and the last word of the last table entry's window, in the
largest block and in one of `W = 32`. -/
theorem witness_AddressMap :
    Config.Legal ⟨128, 64⟩ ∧ WideName.Exists ⟨128, 64⟩ (.base 63) ∧
    target ⟨128, 64⟩ 0x2BFF = .limb (.base 63) 127 ∧ target ⟨128, 64⟩ 0x2C00 = .reserved ∧
    target ⟨1, 64⟩ 0x2B80 = .limb (.base 63) 0 ∧ target ⟨1, 64⟩ 0x2B81 = .reserved ∧
    target ⟨1, 7⟩ 0x0400 = .limb .opa 0 ∧ target ⟨1, 7⟩ 0x0005 = .control .nbases := by decide
theorem witness_ReservedAddressesAreInert :
    ([0x0006, 0x03FF, 0x0401, 0x0700, 0x0BFF, 0x1400, 0x3FFF] : List WordAddr).all
      (fun wa => target Config.atReset wa = .reserved) = true := by decide
theorem witness_ReadOnlyRegistersKeep :
    inRegister Config.atReset .res0 0x0580 ∧ inRegister Config.atReset .res1 0x0600 ∧
    inRegister Config.atReset .res2 0x0680 :=
  ⟨⟨0, by decide⟩, ⟨0, by decide⟩, ⟨0, by decide⟩⟩
theorem witness_ReadsLeaveNoTrace :
    ∀ e ∈ ([edge (.read 0x0003) false, edge (.read 0x3FFF) false] : List Edge),
      e.WritesNothing ∧ (e.complete = false ∨ (withOperands 6 4 7).status.busy = false) := by
  intro e he
  simp only [List.mem_cons, List.not_mem_nil, or_false] at he
  obtain rfl | rfl := he <;>
    exact ⟨⟨rfl, fun wa v h => by cases h⟩, .inl rfl⟩
/-- Writable registers at both ends of the map. -/
theorem witness_LimbWriteIsLocal :
    (withOperands 6 4 7).WF ∧ (withOperands 6 4 7).status.busy = false ∧
    WideName.Exists (withOperands 6 4 7).config .opa ∧
    WideName.Exists (withOperands 6 4 7).config (.base 15) ∧ 0 < (withOperands 6 4 7).config.nl :=
  ⟨withOperands_wf 6 4 7, rfl, trivial, by decide, by decide⟩
/-- The smallest and the largest value, the two limbs written in the other order. -/
theorem witness_RegWriteStoresTheNumber :
    ((Block.resetFor ⟨2, 16⟩).WF ∧ (Block.resetFor ⟨2, 16⟩).status.busy = false) ∧
    2 ^ 64 - 1 < 2 ^ (⟨2, 16⟩ : Config).width ∧
    ([.write (limbAddr .opa 1) 0xFFFFFFFF, .write (limbAddr .opa 0) 0xFFFFFFFF] : List PortEvent).Perm
      (regWrite ⟨2, 16⟩ .opa (2 ^ 64 - 1)) := by
  exact ⟨⟨resetFor_wf (by decide), rfl⟩, by decide, List.Perm.swap _ _ _⟩
theorem witness_ErrorIsAcknowledged :
    (withOperands 6 4 7).rejectCommand.status.busy = false ∧
    (withOperands 6 4 7).rejectCommand.status.err = true := by decide
/-- `min(v[7:0], NB_MAX)` on both sides of the capacity, and where the low byte is 0. -/
theorem test_clamp_at_the_capacity :
    clampBases Config.atReset 15 = 15 ∧ clampBases Config.atReset 16 = 16 ∧
    clampBases Config.atReset 17 = 16 ∧ clampBases Config.atReset 0x100 = 0 := by decide

/-- The phase rises at an edge that issues a command, and falls at one with `Complete`. -/
theorem witness_PhaseChangesOnlyByAcceptCompleteReset :
    (edge (.write 0x0004 0x30) false).Issues .gcd ∧
    (match step (machine (withOperands 6 4 7) [edge (.write 0x0004 0x30) false]) with
      | .next t => t.block.status.busy
      | _ => false) = true ∧
    (match step (inFlight .gcd (withOperands 6 4 7) []) with
      | .next t => t.block.status.busy
      | _ => true) = false := ⟨rfl, by decide, by decide⟩
theorem witness_StepRunsTheCommandInFlight (i : Instr) :
    (inFlight i (withOperands 6 4 7) []).block.config.Legal ∧
    (inFlight i (withOperands 6 4 7) []).CompletesNow i :=
  ⟨(withOperands_wf 6 4 7).1, quiet_completes i _⟩
/-- At the edge of a `Complete`: a read, and a write that issues the next command. -/
theorem witness_CompleteComesFirstAtAnEdge :
    (inFlight .gcd (withOperands 6 4 7) [edge (.read 0x0003) true]).CompletesNow .gcd ∧
    (inFlight .gcd (withOperands 6 4 7) [edge (.write 0x0004 0x40) true]).CompletesNow .gcd ∧
    (edge (.write 0x0004 0x40) true).Issues .mrtest :=
  ⟨⟨rfl, rfl, rfl, by decide⟩, ⟨rfl, rfl, rfl, by decide⟩, rfl⟩
/-- A command in flight that does not complete at the next edge: for the second part of
`CommandsAreAllOrNothing`, the second clauses of `PrimeBelongsToMrtest` and
`CoefficientSignsBelongToXgcd`, `ResultRegistersChangeOnlyByTheirCommands` and
`OperandsAreImmutableInFlight`. -/
theorem witness_in_flight_and_not_completing :
    (inFlight .xgcd (withOperands 6 4 7) [edge (.write 0x0400 1) false]).Inv ∧
    (∀ i, ¬ (inFlight .xgcd (withOperands 6 4 7) [edge (.write 0x0400 1) false]).CompletesNow i) ∧
    ∃ t, step (inFlight .xgcd (withOperands 6 4 7) [edge (.write 0x0400 1) false]) = .next t :=
  ⟨inFlight_inv _ (withOperands_wf 6 4 7) _, fun _ h => absurd h.2.1 (by decide), ⟨_, rfl⟩⟩
/-- MRTEST completes, for the first clause of `PrimeBelongsToMrtest`; XGCD, for that of
`CoefficientSignsBelongToXgcd`. -/
theorem witness_PrimeBelongsToMrtest :
    ((inFlight .mrtest (withOperands 6 4 7) []).CompletesNow .mrtest ∧
      ∃ t, step (inFlight .mrtest (withOperands 6 4 7) []) = .next t) ∧
    ((inFlight .xgcd (withOperands 6 4 7) []).Inv ∧
      (inFlight .xgcd (withOperands 6 4 7) []).CompletesNow .xgcd ∧
      ∃ t, step (inFlight .xgcd (withOperands 6 4 7) []) = .next t) :=
  ⟨⟨quiet_completes _ _, _, rfl⟩, inFlight_inv _ (withOperands_wf 6 4 7) _, quiet_completes _ _,
    _, rfl⟩
/-- A result register that changes. -/
theorem witness_ResultRegistersChangeOnlyByTheirCommands :
    (match step (inFlight .xgcd (withOperands 6 4 7) []) with
      | .next t => decide (t.block.res1 ≠ (withOperands 6 4 7).res1 ∧
          t.block.res0 ≠ (withOperands 6 4 7).res0)
      | _ => false) = true := by decide
/-- A failing command, for each code a reachable one can report. -/
theorem witness_ErrorsArePrecise :
    (inFlight .modinv (withOperands 6 4 7) []).Inv ∧
    (match exec .modinv (inFlight .modinv (withOperands 6 4 7) []) with
      | .next t => some t.block.status.errcode
      | _ => none) = some 3 ∧
    (match exec .mulmod (inFlight .mulmod (withOperands 6 4 1) []) with
      | .next t => some t.block.status.errcode
      | _ => none) = some 1 :=
  ⟨inFlight_inv _ (withOperands_wf 6 4 7) _, by decide, by decide⟩

/-- MULMOD and MODEXP: the modulus on both sides of the check. -/
theorem witness_MulmodCommand :
    ((withOperands 6 4 2).WF ∧ 2 ≤ (withOperands 6 4 2).opmVal) ∧
    ((withOperands 6 4 1).WF ∧ (withOperands 6 4 1).opmVal ≤ 1) :=
  ⟨⟨withOperands_wf 6 4 2, by decide⟩, withOperands_wf 6 4 1, by decide⟩
theorem witness_ModexpCommand :
    ((withOperands 0 0 2).WF ∧ 2 ≤ (withOperands 0 0 2).opmVal) ∧
    ((withOperands 0 0 0).WF ∧ (withOperands 0 0 0).opmVal ≤ 1) :=
  ⟨⟨withOperands_wf 0 0 2, by decide⟩, withOperands_wf 0 0 0, by decide⟩
/-- MONTMUL: 3 is the least legal modulus; 2 and 1 fail. -/
theorem witness_MontmulCommand :
    ((withOperands 6 4 3).WF ∧ 3 ≤ (withOperands 6 4 3).opmVal ∧
      (withOperands 6 4 3).opmVal % 2 = 1) ∧
    ((withOperands 6 4 2).WF ∧ (withOperands 6 4 2).opmVal % 2 = 0) ∧
    ((withOperands 6 4 1).WF ∧ (withOperands 6 4 1).opmVal ≤ 1) :=
  ⟨⟨withOperands_wf 6 4 3, by decide⟩, ⟨withOperands_wf 6 4 2, by decide⟩,
    withOperands_wf 6 4 1, by decide⟩
theorem witness_MontgomeryLaws : 3 ≤ 3 ∧ 3 % 2 = 1 := by decide
theorem witness_BezoutPairAtTheEdges : 0 < 1 ∧ 2 ≤ 2 ∧ 1 ≤ 1 ∧ 0 ≠ 1 := by decide
/-- GCD and XGCD have the one hypothesis. -/
theorem witness_GcdCommand : (withOperands 0 0 0).WF := withOperands_wf 0 0 0
theorem witness_XgcdCommand : (withOperands 2 0xFFFFFFFF 0).WF := withOperands_wf 2 0xFFFFFFFF 0
/-- MODINV: the modulus 1, the modulus 0, and operands with a common factor. -/
theorem witness_ModinvCommand :
    ((withOperands 5 1 0).WF ∧ 1 ≤ (withOperands 5 1 0).opbVal ∧
      Nat.gcd (withOperands 5 1 0).opaVal (withOperands 5 1 0).opbVal = 1) ∧
    ((withOperands 1 0 0).WF ∧ (withOperands 1 0 0).opbVal = 0) ∧
    ((withOperands 0 5 0).WF ∧ 1 ≤ (withOperands 0 5 0).opbVal ∧
      Nat.gcd (withOperands 0 5 0).opaVal (withOperands 0 5 0).opbVal ≠ 1) :=
  ⟨⟨withOperands_wf 5 1 0, by decide⟩, ⟨withOperands_wf 1 0 0, by decide⟩,
    withOperands_wf 0 5 0, by decide⟩
/-- MRTEST: each trivial case at its ends, and `5 - 1 = 2^2 * 1`. -/
theorem witness_MrtestCommand :
    ((withOperands 1 0 0).WF ∧ (withOperands 1 0 0).opaVal < 2) ∧
    ((withOperands 2 0 0).WF ∧ (withOperands 2 0 0).opaVal = 2) ∧
    ((withOperands 3 0 0).WF ∧ (withOperands 3 0 0).opaVal = 3) ∧
    ((withOperands 4 0 0).WF ∧ 4 ≤ (withOperands 4 0 0).opaVal ∧
      (withOperands 4 0 0).opaVal % 2 = 0) ∧
    ((withOperands 5 0 0).WF ∧ 5 ≤ (withOperands 5 0 0).opaVal ∧
      (withOperands 5 0 0).opaVal - 1 = 2 ^ 2 * 1) :=
  ⟨⟨withOperands_wf 1 0 0, by decide⟩, ⟨withOperands_wf 2 0 0, by decide⟩,
    ⟨withOperands_wf 3 0 0, by decide⟩, ⟨withOperands_wf 4 0 0, by decide⟩,
    withOperands_wf 5 0 0, by decide⟩
/-- An active base at or above the prime, which is skipped, and one below it. -/
theorem witness_MrtestNeverCondemnsAPrime :
    (withBases 7 [8, 6]).WF ∧ Nat.Prime (withBases 7 [8, 6]).opaVal ∧
    (∀ k, k < (withBases 7 [8, 6]).nbases.toNat → 1 ≤ (withBases 7 [8, 6]).value (.base k)) ∧
    ∃ t, exec .mrtest (machine (withBases 7 [8, 6]) []) = .next t := by
  refine ⟨withBases_wf 7 [8, 6] (by decide), ?_, by decide, ⟨_, rfl⟩⟩
  have : (withBases 7 [8, 6]).opaVal = 7 := by decide
  rw [this]
  decide
/-- The bases 1, `n - 1` and `n`; and a base 0. -/
theorem witness_MrtestTableCorners :
    ((withBases 9 [1, 8, 9]).WF ∧ 5 ≤ (withBases 9 [1, 8, 9]).opaVal ∧
      (withBases 9 [1, 8, 9]).opaVal % 2 = 1 ∧
      ∀ k, k < (withBases 9 [1, 8, 9]).nbases.toNat →
        (withBases 9 [1, 8, 9]).value (.base k) = 1 ∨
        (withBases 9 [1, 8, 9]).opaVal - 1 ≤ (withBases 9 [1, 8, 9]).value (.base k)) ∧
    ((withBases 7 [0]).WF ∧ 5 ≤ (withBases 7 [0]).opaVal ∧ 0 < (withBases 7 [0]).nbases.toNat ∧
      (withBases 7 [0]).value (.base 0) = 0) :=
  ⟨⟨withBases_wf 9 [1, 8, 9] (by decide), by decide, by decide, by decide⟩,
    withBases_wf 7 [0] (by decide), by decide⟩
/-- The same bases in another order, one of them twice. -/
theorem witness_MrtestIgnoresBaseOrder :
    ∀ a, a ∈ (withBases 221 [174, 137]).activeBases ↔
      a ∈ (withBases 221 [137, 174, 137]).activeBases := by
  have h1 : (withBases 221 [174, 137]).activeBases = [174, 137] := by decide
  have h2 : (withBases 221 [137, 174, 137]).activeBases = [137, 174, 137] := by decide
  intro a
  rw [h1, h2]
  simp
  tauto
/-- Two states that agree on what GCD reads and differ in all else. -/
theorem witness_OutcomeDependsOnlyOnWhatIsRead :
    (inFlight .gcd (withOperands 6 4 7) []).Inv ∧ (inFlight .gcd (withOperands 6 4 9) []).Inv ∧
    (inFlight .gcd (withOperands 6 4 7) []).block.AgreeOnReads .gcd
      (inFlight .gcd (withOperands 6 4 9) []).block :=
  ⟨inFlight_inv _ (withOperands_wf 6 4 7) _, inFlight_inv _ (withOperands_wf 6 4 9) _, rfl, rfl, rfl⟩
/-- A launch state; an edge that issues a command; and edges after it that write or only read. -/
theorem witness_AcceptedCommandCompletesOnItsOperands :
    (machine (withOperands 6 4 7) [edge (.write 0x0004 0x30) false, edge (.write 0x0400 9) false,
      edge (.read 0x0003) true]).Launch ∧
    (edge (.write 0x0004 0x30) false).Issues .gcd ∧
    (∀ e ∈ [edge (.write 0x0400 9) false, edge (.read 0x0003) true], e.pins.rst = false) :=
  ⟨⟨withOperands_wf 6 4 7, rfl⟩, rfl, by decide⟩
theorem witness_PlacementOfCompleteDoesNotMatter :
    (machine (withOperands 6 4 7) []).Launch ∧ (edge (.write 0x0004 0x30) false).Issues .gcd ∧
    (edge (.read 0x0003) true).WritesNothing :=
  ⟨⟨withOperands_wf 6 4 7, rfl⟩, rfl, rfl, fun wa v h => by cases h⟩

/-- `WAIT` with a command in flight, and with none. -/
theorem witness_WaitPollsUntilNotBusy :
    ((inFlight .modexp (withOperands 6 4 7) []).Inv ∧
      ([.wait] : HostProgram)[(Session.start [] (inFlight .modexp (withOperands 6 4 7) [])).host.line]? =
        some .wait ∧
      (inFlight .modexp (withOperands 6 4 7) []).block.status.busy = true ∧
      decode (inFlight .modexp (withOperands 6 4 7) []).block.pending = .ok .modexp) ∧
    ((machine (withOperands 6 4 7) []).Inv ∧
      (machine (withOperands 6 4 7) []).block.status.busy = false) :=
  ⟨⟨inFlight_inv _ (withOperands_wf 6 4 7) _, rfl, rfl, decode_encode _⟩, idle_inv _ _ _, rfl⟩
/-- A run of a program: the polls of `WAIT`. -/
theorem witness_SessionsAreRuns :
    ∃ y, Session.run [.wait] [false, true]
      (Session.start [] (inFlight .modexp (withOperands 6 4 7) [])) = .next y := ⟨_, rfl⟩
/-- `WR` of the largest number into the last table entry, and `RD` of it; two limbs. -/
theorem witness_RegisterLinesExpand :
    (Session.start [(0, 2 ^ 64 - 1)] (machine (Block.resetFor ⟨2, 16⟩) [])).machine.Inv ∧
    HostExpr.eval [(0, 2 ^ 64 - 1)] (.var 0) = some ((2 ^ 64 - 1 : Nat) : Int) ∧
    2 ^ 64 - 1 < 2 ^ (⟨2, 16⟩ : Config).width ∧
    WideName.Exists ⟨2, 16⟩ (.base 15) ∧ ¬ WideName.Exists ⟨2, 16⟩ (.base 16) ∧
    (Session.run [.wrWide (.base 15) (.var 0), .rdWide (.base 15) (some 1)]
        [false, true, true, false]
        (Session.start [(0, 2 ^ 64 - 1)] (machine (Block.resetFor ⟨2, 16⟩) [])) matches .next _) := by
  refine ⟨resetFor_wf (by decide), by decide, by decide, by decide, by decide, ?_⟩
  decide +kernel
/-- A line of each kind of one event, at the ends of addresses and values. -/
theorem witness_OneEventLines :
    (machine (withOperands 6 4 7) []).Inv ∧
    ([.wrw (.num 0x3FFF) (.num (2 ^ 32 - 1)), .ack (.num 4), .wrCtrl .ctrl (.num 3), .command .gcd,
        .rdw (.num 0x3FFF) (some 0), .rdCtrl .status (some 1)] : HostProgram)[
      (Session.start [] (machine (withOperands 6 4 7) [])).host.line]? =
        some (.wrw (.num 0x3FFF) (.num (2 ^ 32 - 1))) ∧
    HostExpr.eval [] (.num 0x3FFF) = some ((0x3FFF : WordAddr).toNat : Int) ∧
    HostExpr.eval [] (.num (2 ^ 32 - 1)) = some ((0xFFFFFFFF : Word).toNat : Int) ∧
    HostExpr.eval [] (.mod (.num (-1)) (.num 8)) = some ((7 : Word).toNat : Int) :=
  ⟨idle_inv _ _ _, rfl, by decide, by decide, by decide⟩
/-- `SET`, `IF` both ways, a jump to the last line, `END` and `RESET`. -/
theorem witness_HostOnlyLinesMakeNoEvent :
    (machine (withOperands 6 4 7) []).Inv ∧
    HostExpr.eval [(0, 5)] (.bit (.var 0) 2) = some 1 ∧
    HostCond.eval [(0, 5)] (.eq (.bit (.var 0) 2) (.num 1)) = some true ∧
    HostCond.eval [(0, 5)] (.eq (.bit (.var 0) 1) (.num 1)) = some false ∧
    ([.goto 3, .finish, .reset, .label 3] : HostProgram)[
      (Session.start [(0, 5)] (machine (withOperands 6 4 7) [])).host.line]? = some (.goto 3) ∧
    ([.goto 3, .finish, .reset, .label 3] : HostProgram)[3]? = some (.label 3) ∧
    ([.goto 3, .finish, .reset, .label 3] : HostProgram).count (.label 3) = 1 :=
  ⟨idle_inv _ _ _, by decide, by decide, by decide, rfl, by decide, by decide⟩

end Sys2Proof.Tests
end

/-! ### O54: a host program run beside the block is a run of the machine (R19, R80)

A step takes one edge off the list and looks at no other. So the run that lists all its edges at the
start takes the same steps as the program's run, where each edge is listed as its line makes it. -/

namespace Sys2Proof.Machine

/-! #### The edges to come -/

/-- A port cycle does not look at the edges to come. -/
theorem portCycle_withEdges (p : Pins) (s : State) (es : List Edge) :
    State.portCycle p { s with edges := es } = { s.portCycle p with edges := es } := by
  obtain ⟨he, h⟩ | ⟨wa, he, h⟩ | ⟨wa, v, he, h⟩ := portCycle_cases p s <;> rw [h] <;>
    simp [State.portCycle, he, State.rdata]

/-- An edge does not look at those after it. -/
theorem clockEdge_withEdges {e : Edge} {s t : State} (es : List Edge)
    (h : s.clockEdge e = .next t) :
    State.clockEdge e { s with edges := es } = .next { t with edges := es } := by
  obtain ⟨hr, hs⟩ | ⟨hr, hc, hs⟩ | ⟨hr, hc, hb, ⟨i, hi, hs⟩ | ⟨x, -, hs⟩⟩ := clockEdge_cases e s <;>
    rw [hs] at h <;> cases h
  · simp [State.clockEdge, hr, State.applyReset]
  · have hn : ¬ (e.complete && s.block.status.busy) = true := by
      rcases hc with hc | hc <;> simp [hc]
    simp [State.clockEdge, hr, hn, portCycle_withEdges]
  · rw [← portCycle_withEdges]
    simp [State.clockEdge, State.runPending, hr, hc, hb, hi, exec_eq, State.complete]

/-- A step on the only edge listed is the step on that edge with any others after it, which are then
left to come. -/
theorem step_withEdges {s t : State} {e : Edge} (es : List Edge)
    (h : step { s with edges := [e] } = .next t) :
    step { s with edges := e :: es } = .next { t with edges := es } := by
  have hl := step_next_legal h
  rw [step_legal hl] at h
  rw [step_legal (s := { s with edges := e :: es }) hl]
  exact clockEdge_withEdges es h

/-! #### Steps and runs of a program -/

/-- The port events a cycle records are the event of its pins, if there is one. -/
theorem record_events (pins : Pins) (w : Word) :
    (record pins w).map (·.event) = pins.event.toList := by
  unfold record
  rcases pins.event with _ | ⟨wa, v⟩ | ⟨wa⟩ <;> rfl

/-- A step of a program is the machine's step on the edge of the host's line, and lists its event. -/
theorem session_step_cases {p : HostProgram} {c : Bool} {x y : Session}
    (h : x.step p c = .next y) :
    step { x.machine with edges := [x.edge p c] } = .next y.machine ∧
      y.trace.map (·.event) = x.trace.map (·.event) ++ (x.edge p c).pins.event.toList := by
  unfold Session.step at h
  split at h <;> cases h
  next t ht => exact ⟨ht, by simp [record_events]⟩

/-- A run that ends in a next state began with a step that did. -/
theorem session_run_cons_cases {p : HostProgram} {c : Bool} {ps : List Bool} {x z : Session}
    (h : Session.run p (c :: ps) x = .next z) :
    ∃ y, x.step p c = .next y ∧ Session.run p ps y = .next z := by
  rcases hs : x.step p c with y | f | r
  · exact ⟨y, rfl, (session_run_cons hs).symm.trans h⟩
  all_goals simp [Session.run, hs] at h

/-- A run of a program is the machine's run on the edges of its lines, to the very same machine with
no edge left to come. -/
theorem session_run_is_run {p : HostProgram} {ps : List Bool} {x y : Session}
    (h : Session.run p ps x = .next y) :
    ∃ es : List Edge, es.map (·.complete) = ps ∧
      Host.Core.run core ps.length { x.machine with edges := es } =
        .next { y.machine with edges := [] } ∧
      y.trace.map (·.event) = x.trace.map (·.event) ++ es.filterMap (·.pins.event) := by
  induction ps generalizing x with
  | nil =>
    cases h
    exact ⟨[], rfl, rfl, by simp⟩
  | cons c ps ih =>
    obtain ⟨z, hz, hrun⟩ := session_run_cons_cases h
    obtain ⟨hstep, htrace⟩ := session_step_cases hz
    obtain ⟨es, hes, hcore, hevents⟩ := ih hrun
    refine ⟨x.edge p c :: es, by simp [hes, Session.edge], ?_, ?_⟩
    · exact (run_of_step (step_withEdges es hstep)).trans hcore
    · rw [hevents, htrace, List.append_assoc]
      cases he : (x.edge p c).pins.event <;> simp [he]

/-- Settles O54, by induction on the placements of `Complete`: each step of the program is the
machine's step on the edge its line makes, whatever edges come after it. -/
theorem sessionsAreRuns : Obligations.SessionsAreRuns := by
  intro p ps x y h
  obtain ⟨es, hes, hrun, hevents⟩ := session_run_is_run h
  exact ⟨es, _, hes, hrun, rfl, rfl, hevents⟩

end Sys2Proof.Machine

/-! ### The state's statements: what they share about the decoder, the writes and the step -/

namespace Sys2Proof

/-! #### The decoder -/

theorem unitOfField_some {u : BitVec 4} {n : UnitName} (h : unitOfField u = some n) :
    u = n.code := by
  unfold unitOfField at h
  repeat' split at h
  all_goals cases h
  all_goals assumption

theorem commandOfField_some {n : UnitName} {f : BitVec 4} {i : Instr}
    (h : commandOfField n f = some i) : i.unit = n ∧ i.func = f := by
  cases n <;> simp only [commandOfField] at h
  all_goals repeat' split at h
  all_goals cases h
  all_goals subst_vars; exact ⟨rfl, rfl⟩

/-- A word is its three fields (R70). -/
theorem fields_append (w : Word) : zeroField w ++ unitField w ++ funcField w = w := by
  apply BitVec.eq_of_getLsbD_eq
  intro i hi
  simp only [zeroField, unitField, funcField, BitVec.getLsbD_append, BitVec.getLsbD_extractLsb']
  split
  · simp_all
  · split
    · have h4 : 4 + (i - 4) = i := by omega
      simp_all
    · have h8 : 8 + (i - 4 - 4) = i := by omega
      have h24 : i - 4 - 4 < 24 := by omega
      simp_all

/-- Only a command's own word decodes to it (R76). -/
theorem eq_encode_of_decode {w : Word} {i : Instr} (h : decode w = .ok i) : w = encode i := by
  unfold decode at h
  split at h
  · cases h
  · rename_i hz
    split at h
    · cases h
    · rename_i u hu
      split at h
      · cases h
      · rename_i j hj
        cases h
        obtain ⟨hunit, hfunc⟩ := commandOfField_some hj
        rw [← fields_append w, encode, hunit, hfunc, ← unitOfField_some hu, not_not.1 hz]
        rfl

/-- A word is its own entry in the opcode table (R73). -/
theorem tableWord_toNat (v : Word) : tableWord 32 v.toNat = some v := by
  simp [tableWord, Nat.mod_eq_of_lt v.isLt, v.isLt]

end Sys2Proof

namespace Sys2Proof.Machine

/-! #### What a write leaves -/

section Writes
variable (b : Block) (r : WideName) (j : Nat) (wa : WordAddr) (v : Word)

@[simp] theorem writeLimb_res0 : (b.writeLimb r j v).res0 = b.res0 := by cases r <;> rfl
@[simp] theorem writeLimb_res1 : (b.writeLimb r j v).res1 = b.res1 := by cases r <;> rfl
@[simp] theorem writeLimb_res2 : (b.writeLimb r j v).res2 = b.res2 := by cases r <;> rfl

/-- No host write reaches a result register or a result flag (R22, R27, R28). -/
theorem portWrite_sameResults : b.SameResults (b.portWrite wa v) := by
  obtain ⟨-, h⟩ | ⟨-, ⟨r, -, h⟩ | ⟨r, j, -, -, -, h⟩ | ⟨-, h⟩⟩ := portWrite_cases b wa v
  · simp [h, Block.SameResults]
  · obtain h' | ⟨-, h'⟩ | ⟨-, h'⟩ | ⟨-, h'⟩ | ⟨-, -, h'⟩ | ⟨-, -, h'⟩ := writeCtrl_cases b r v <;>
      simp [h, h', Block.SameResults]
  · simp [h, Block.SameResults]
  · simp [h, Block.SameResults]

end Writes

/-! #### The words of `STATUS` and `CTRL` after a write -/

/-- `toWord_getLsbD` in the form in which `simp` writes a bit. -/
@[simp] theorem toWord_getElem (t : Status) (i : Nat) (hi : i < 32) :
    t.toWord[i] =
      if i < 8 then
        [t.busy, t.done, t.err, t.busywr, t.prime, t.xneg, t.yneg, false].getD i false
      else t.errcode.getLsbD (i - 8) := toWord_getLsbD t i

theorem ctrl_ofWord_toWord (v : Word) : (Ctrl.ofWord v).toWord = v &&& 0x3 := by
  apply BitVec.eq_of_getLsbD_eq
  intro i hi
  rw [ctrl_toWord_getLsbD]
  interval_cases i <;> simp [Ctrl.ofWord]

theorem writeOneToClear_toWord (t : Status) (v : Word) :
    (t.writeOneToClear v).toWord =
      t.toWord &&& ~~~(v &&& 0xE) &&& ~~~(if v.getLsbD 2 then 0xFF00 else 0) := by
  refine status_word_ext (fun i hi => ?_) fun i hi => ?_
  · cases v.getLsbD 2 <;> interval_cases i <;> simp
  · rw [writeOneToClear_errcode]
    cases v.getLsbD 2 <;> interval_cases i <;> simp

theorem accept_toWord (t : Status) : t.accept.toWord = (t.toWord &&& 0x78) ||| 0x1 := by
  refine status_word_ext (fun i hi => ?_) fun i hi => ?_
  · interval_cases i <;> simp
  · interval_cases i <;> simp

/-! #### Writes as the port shows them -/

/-- Where one control register alone differs, only its word can read differently. -/
theorem keepsOutside_ctrlAddr {b b' : Block} (r : CtrlName) (hc : b'.config = b.config)
    (hw : ∀ r', b'.wide r' = b.wide r') (hr : ∀ r', r' ≠ r → b'.readCtrl r' = b.readCtrl r') :
    b.KeepsOutside (fun wa => wa = ctrlAddr r) b' := by
  intro wa hwa
  refine portRead_congr wa hc (fun r j _ => by rw [hw]) fun r' hr' => hr r' ?_
  rintro rfl
  exact hwa hr'

/-- `STATUS` and `PENDING` alone are written: only the word at `STATUS` can read differently. -/
theorem keepsOutside_of_status (b : Block) (t : Status) (w : Word) :
    b.KeepsOutside atStatus { b with status := t, pending := w } :=
  keepsOutside_status rfl (fun r => by cases r <;> rfl) rfl rfl

/-- A write while a command is in flight is discarded (R61). -/
theorem portWrite_discarded {b : Block} (h : b.status.busy = true) (wa : WordAddr) (v : Word) :
    b.Discarded (b.portWrite wa v) := by
  rw [portWrite_busy h]
  refine ⟨?_, rfl, keepsOutside_of_status b _ b.pending, rfl, rfl⟩
  simp only [statusWord_eq]
  refine status_word_ext (fun i hi => ?_) fun i hi => ?_
  · interval_cases i <;> simp
  · interval_cases i <;> simp

/-- Only a command word written to `CMD` takes the block from phase IDLE to BUSY (R25). -/
theorem portWrite_becomes_busy {b : Block} {wa : WordAddr} {v : Word}
    (h : b.status.busy = false) (h' : (b.portWrite wa v).status.busy = true) :
    wa = ctrlAddr .cmd ∧ ∃ i, v = encode i ∧ b.portWrite wa v = b.accept v := by
  obtain ⟨hb, -⟩ | ⟨-, ⟨r, hwa, hw⟩ | ⟨r, j, -, -, -, hw⟩ | ⟨-, hw⟩⟩ := portWrite_cases b wa v
  · simp [h] at hb
  · obtain hc | ⟨-, hc⟩ | ⟨-, hc⟩ | ⟨-, hc⟩ | ⟨rfl, ⟨i, hi⟩, hc⟩ | ⟨-, -, hc⟩ :=
      writeCtrl_cases b r v
    pick_goal 5
    · exact ⟨hwa, i, eq_encode_of_decode hi, hw.trans hc⟩
    all_goals simp [hw, hc, h] at h'
  · simp [hw, h] at h'
  · simp [hw, h] at h'

/-- A command word written to `CMD` in phase IDLE is accepted (R40). -/
theorem portWrite_command {b : Block} (h : b.status.busy = false) (i : Instr) :
    b.portWrite (ctrlAddr .cmd) (encode i) = b.accept (encode i) := by
  simp [portWrite_ctrlAddr h, Block.writeCtrl, Block.writeCmd, decode_encode]

/-! #### The same inputs, the same results -/

theorem Block.SameResults.refl (b : Block) : b.SameResults b := ⟨rfl, rfl, rfl, rfl, rfl, rfl⟩

theorem Block.SameInputs.refl (b : Block) : b.SameInputs b := ⟨rfl, rfl, rfl, rfl, rfl, rfl⟩

theorem Block.SameResults.trans {b b' b'' : Block} (h : b.SameResults b')
    (h' : b'.SameResults b'') : b.SameResults b'' := by
  obtain ⟨h0, h1, h2, hp, hx, hy⟩ := h
  obtain ⟨h0', h1', h2', hp', hx', hy'⟩ := h'
  exact ⟨h0'.trans h0, h1'.trans h1, h2'.trans h2, hp'.trans hp, hx'.trans hx, hy'.trans hy⟩

theorem Block.SameInputs.trans {b b' b'' : Block} (h : b.SameInputs b')
    (h' : b'.SameInputs b'') : b.SameInputs b'' := by
  obtain ⟨hc, ha, hb, hm, ht, hn⟩ := h
  obtain ⟨hc', ha', hb', hm', ht', hn'⟩ := h'
  exact ⟨hc'.trans hc, ha'.trans ha, hb'.trans hb, hm'.trans hm, ht'.trans ht, hn'.trans hn⟩

/-! #### What a command does to the results (R38) -/

/-- A command other than XGCD leaves what XGCD owns. -/
theorem complete_keeps_coefficients {i : Instr} (b : Block) (hi : i ≠ .xgcd) :
    (b.complete (resultsOf i b)).status.xneg = b.status.xneg ∧
    (b.complete (resultsOf i b)).status.yneg = b.status.yneg ∧
    (b.complete (resultsOf i b)).res1 = b.res1 ∧ (b.complete (resultsOf i b)).res2 = b.res2 := by
  rcases hr : resultsOf i b with k | r
  · simp
  · have hw := mt (resultsOf_writes hr).1 hi
    simp only [ne_eq, not_or, not_not] at hw
    obtain ⟨h1, h2, hx, hy⟩ := hw
    simp [h1, h2, hx, hy, storeResult]

/-- A command other than MRTEST leaves `PRIME`. -/
theorem complete_keeps_prime {i : Instr} (b : Block) (hi : i ≠ .mrtest) :
    (b.complete (resultsOf i b)).status.prime = b.status.prime := by
  rcases hr : resultsOf i b with k | r
  · simp
  · have hw := not_not.1 (mt (resultsOf_writes hr).2.1.1 hi)
    simp [hw]

/-- MRTEST writes `PRIME` (R134). -/
theorem complete_mrtest_prime (b : Block) :
    (b.complete (resultsOf .mrtest b)).status.prime = millerRabin b.opaVal b.activeBases := rfl

/-- MRTEST writes no register (R134). -/
theorem complete_mrtest_res0 (b : Block) : (b.complete (resultsOf .mrtest b)).res0 = b.res0 := rfl

/-- Both coefficients fit: XGCD of a well-formed block never fails (R119). -/
theorem xgcdResults_ok {b : Block} (h : b.WF) :
    xgcdResults b = .ok
      { res0 := some (extGcd b.opaVal b.opbVal).g
        res1 := some (extGcd b.opaVal b.opbVal).x.natAbs
        xneg := some (decide ((extGcd b.opaVal b.opbVal).x < 0))
        res2 := some (extGcd b.opaVal b.opbVal).y.natAbs
        yneg := some (decide ((extGcd b.opaVal b.opbVal).y < 0)) } := by
  obtain ⟨⟨⟨hnl, -⟩, -⟩, ⟨⟨ha, hb, -⟩, -⟩, -⟩ := h
  have hA : b.opaVal < 2 ^ b.config.width := by
    simpa [Block.opaVal, Config.width, ha] using limbsToNat_lt b.opa
  have hB : b.opbVal < 2 ^ b.config.width := by
    simpa [Block.opbVal, Config.width, hb] using limbsToNat_lt b.opb
  have h1 : 1 < 2 ^ b.config.width := Nat.one_lt_two_pow (by simp only [Config.width]; omega)
  obtain ⟨hx, hy⟩ := extGcd_bounded b.opaVal b.opbVal
  exact if_neg (by omega)

theorem complete_xgcd_signs {b : Block} (h : b.WF) :
    (b.complete (resultsOf .xgcd b)).status.xneg = decide ((extGcd b.opaVal b.opbVal).x < 0) ∧
    (b.complete (resultsOf .xgcd b)).status.yneg = decide ((extGcd b.opaVal b.opbVal).y < 0) := by
  simp [resultsOf, xgcdResults_ok h]

/-- A command's function sees only its reads column (R38). -/
theorem resultsOf_congr {i : Instr} {b b' : Block} (h : b.AgreeOnReads i b') :
    resultsOf i b' = resultsOf i b := by
  obtain ⟨hc, ha, h⟩ := h
  have hA : b'.opaVal = b.opaVal := congrArg limbsToNat ha
  cases i
  case mulmod | modexp | montmul =>
    have hB : b'.opbVal = b.opbVal := congrArg limbsToNat h.1
    have hM : b'.opmVal = b.opmVal := congrArg limbsToNat h.2
    simp only [resultsOf, mulmodResults, modexpResults, montmulResults, hc, hA, hB, hM]
  case gcd | xgcd | modinv =>
    have hB : b'.opbVal = b.opbVal := congrArg limbsToNat h
    simp only [resultsOf, gcdResults, xgcdResults, modinvResults, hc, hA, hB]
  case mrtest =>
    simp only [resultsOf, mrtestResults, hA, h.2]

/-- While a command is in flight no outcome is reported (R43). -/
theorem flags_in_flight {b : Block} (h : b.WF) (hb : b.status.busy = true) :
    b.status.done = false ∧ b.status.err = false ∧ b.status.errcode = 0 := by
  obtain ⟨-, -, ⟨hbusy, -, -, hcode, -⟩, -⟩ := h
  obtain ⟨hd, he⟩ := hbusy hb
  exact ⟨hd, he, hcode.1 he⟩

/-! #### What a step does -/

theorem State.CompletesNow.unique {s : State} {i j : Instr} (hi : s.CompletesNow i)
    (hj : s.CompletesNow j) : i = j := by
  obtain ⟨-, -, -, hi⟩ := hi
  obtain ⟨-, -, -, hj⟩ := hj
  exact Except.ok.inj (hi.symm.trans hj)

theorem step_of_completesNow {s : State} {i : Instr} (hl : s.block.config.Legal)
    (h : s.CompletesNow i) :
    step s = .next ((s.advance.complete (resultsOf i s.block)).portCycle s.nextEdge.pins) := by
  obtain ⟨hr, hc, hb, hi⟩ := h
  simp [step_legal hl, State.clockEdge, State.runPending, hr, hc, hb, hi, exec_eq]

theorem step_of_not_complete {s : State} (hl : s.block.config.Legal)
    (hr : s.nextEdge.pins.rst = false)
    (hc : s.nextEdge.complete = false ∨ s.block.status.busy = false) :
    step s = .next (s.advance.portCycle s.nextEdge.pins) := by
  rcases hc with hc | hc <;> simp [step_legal hl, State.clockEdge, hr, hc]

/-- A cycle with a port event is none of reset (R52). -/
theorem rst_of_event {p : Pins} {e : PortEvent} (h : p.event = some e) : p.rst = false := by
  cases hr : p.rst
  · rfl
  · simp [Pins.event, hr] at h

theorem portCycle_sameResults (p : Pins) (s : State) :
    s.block.SameResults (s.portCycle p).block := by
  obtain ⟨-, h⟩ | ⟨wa, -, h⟩ | ⟨wa, v, -, h⟩ := portCycle_cases p s <;> rw [h]
  · exact .refl _
  · exact .refl _
  · exact portWrite_sameResults s.block wa v

/-- A step without reset: the results are those before it, or those of the one command that
completes. -/
theorem step_results {s t : State} (h : step s = .next t) (hr : s.nextEdge.pins.rst = false) :
    ((∀ i, ¬ s.CompletesNow i) ∧ s.block.SameResults t.block) ∨
    ∃ i, s.CompletesNow i ∧ (s.block.complete (resultsOf i s.block)).SameResults t.block := by
  obtain ⟨-, ⟨hr', -⟩ | ⟨-, hc, rfl⟩ | ⟨-, hc, hb, i, hi, rfl⟩⟩ := step_cases h
  · simp [hr] at hr'
  · refine .inl ⟨?_, portCycle_sameResults _ s.advance⟩
    rintro i ⟨-, hc', hb', -⟩
    simp [hc', hb'] at hc
  · exact .inr ⟨i, ⟨hr, hc, hb, hi⟩, portCycle_sameResults _ (s.advance.complete _)⟩

theorem step_config {s t : State} (h : step s = .next t) : t.block.config = s.block.config := by
  obtain ⟨-, ⟨-, rfl⟩ | ⟨-, -, rfl⟩ | ⟨-, -, -, i, -, rfl⟩⟩ := step_cases h <;> simp

theorem run_keeps_inv {k : Nat} {s t : State} (hs : s.Inv)
    (h : Host.Core.run core k s = .next t) : t.Inv := by
  induction k generalizing s with
  | zero => cases h; exact hs
  | succ k ih =>
    obtain ⟨u, hu, hrun⟩ := run_succ_cases h
    exact ih (step_keeps_inv hs hu) hrun

/-! #### A command in flight -/

/-- Command `i` is in flight, in a block whose parameters are in range. -/
def State.InFlight (i : Instr) (s : State) : Prop :=
  s.block.config.Legal ∧ s.block.status.busy = true ∧ decode s.block.pending = .ok i

theorem State.InFlight.completesNow {i : Instr} {s : State} (h : s.InFlight i)
    (hr : s.nextEdge.pins.rst = false) (hc : s.nextEdge.complete = true) : s.CompletesNow i :=
  ⟨hr, hc, h.2.1, h.2.2⟩

/-- A port cycle while a command is in flight changes `BUSYWR` at most (R61). -/
theorem State.InFlight.portCycle {i : Instr} {s : State} (h : s.InFlight i) (p : Pins) :
    (s.portCycle p).InFlight i ∧ s.block.SameInputs (s.portCycle p).block := by
  obtain ⟨hl, hb, hd⟩ := h
  obtain ⟨-, h⟩ | ⟨wa, -, h⟩ | ⟨wa, v, -, h⟩ := portCycle_cases p s <;> rw [h]
  · exact ⟨⟨hl, hb, hd⟩, .refl _⟩
  · exact ⟨⟨hl, hb, hd⟩, .refl _⟩
  · rw [portWrite_busy hb]
    exact ⟨⟨hl, hb, hd⟩, rfl, rfl, rfl, rfl, rfl, rfl⟩

/-- A command in flight comes to its `Complete` within the edges listed and one more, whatever the
host does short of a reset (R193). -/
theorem State.InFlight.run_to_completesNow {i : Instr} {es : List Edge} {s : State}
    (h : s.InFlight i) (hes : s.edges = es) (hrst : ∀ e ∈ es, e.pins.rst = false) :
    ∃ k t, k ≤ es.length ∧ Host.Core.run core k s = .next t ∧ t.InFlight i ∧ t.CompletesNow i ∧
      s.block.SameInputs t.block ∧ s.block.SameResults t.block := by
  induction es generalizing s with
  | nil =>
    have hq : s.nextEdge = Edge.quiet := by simp [State.nextEdge, hes]
    exact ⟨0, s, le_rfl, rfl, h, h.completesNow (by rw [hq]; rfl) (by rw [hq]; rfl), .refl _,
      .refl _⟩
  | cons e es ih =>
    have he : s.nextEdge = e := by simp [State.nextEdge, hes]
    have hr : s.nextEdge.pins.rst = false := he ▸ hrst e (by simp)
    rcases hc : s.nextEdge.complete with _ | _
    · have hstep := step_of_not_complete h.1 hr (.inl hc)
      obtain ⟨hin, hsame⟩ := State.InFlight.portCycle (s := s.advance) h s.nextEdge.pins
      obtain ⟨k, t, hk, hrun, ht, hcn, hi, hres⟩ := ih hin (by simp [hes])
        (fun e' he' => hrst e' (by simp [he']))
      exact ⟨k + 1, t, by simpa using hk, (run_of_step hstep).trans hrun, ht, hcn, hsame.trans hi,
        (portCycle_sameResults _ s.advance).trans hres⟩
    · exact ⟨0, s, by simp, rfl, h, h.completesNow hr hc, .refl _, .refl _⟩

/-! ### The invariant (R43) -/

/-- Settles O9: reset, a port cycle and a `Complete` each keep the invariant, and a step is made of
these. -/
theorem stepKeepsInvariant : Obligations.StepKeepsInvariant :=
  fun _ _ hs h => step_keeps_inv hs h

/-- Settles O8: the reset block of legal parameters is well formed, with `BUSY` clear. -/
theorem resetMeetsInvariant : Obligations.ResetMeetsInvariant :=
  ⟨fun _ hc => ⟨resetFor_wf hc, rfl⟩, resetFor_wf (by decide), rfl⟩

/-- Settles O10: the parameters are in range, so the step is not refused; and `PENDING` holds a
command while one is in flight, so its `Complete` does not fault. -/
theorem stepGoesOn : Obligations.StepGoesOn := by
  intro s hs
  rw [step_legal hs.1]
  by_cases hr : s.nextEdge.pins.rst = true
  · exact ⟨_, if_pos hr⟩
  · exact ⟨_, clockEdge_settle (s := s.advance) hs (by simpa using hr)⟩

/-- Settles O11: the invariant holds at reset and along every run. -/
theorem statusConsistentWhereverReached : Obligations.StatusConsistentWhereverReached := by
  rintro t ⟨c, es, k, hc, hrun⟩
  obtain ⟨-, -, ⟨hbusy, hdone, herr, hzero, hcode⟩, -⟩ :=
    run_keeps_inv (s := { State.resetFor c with edges := es }) (resetFor_wf hc) hrun
  exact ⟨hbusy, hdone, herr, hzero, by simpa using hcode⟩

/-! ### The reset state (R44) -/

theorem value_zero {b : Block} {r : WideName} {n : Nat} (h : b.wide r = natToLimbs n 0) :
    b.value r = 0 := by
  rw [Block.value, h, limbsToNat_natToLimbs (by positivity)]

theorem defaultBases_lt (i : Nat) : defaultBases.getD i 0 < 2 ^ 32 := by
  rcases Nat.lt_or_ge i 7 with h | h
  · interval_cases i <;> decide
  · rw [List.getD_eq_default _ _ h]
    decide

/-- The table holds the example list and then zeros. -/
theorem resetFor_base {c : Config} (hc : c.Legal) {i : Nat} (hi : i < c.nbMax) :
    (Block.resetFor c).value (.base i) = defaultBases.getD i 0 := by
  have hfit : defaultBases.getD i 0 < 2 ^ (32 * c.nl) :=
    (defaultBases_lt i).trans_le (Nat.pow_le_pow_right (by decide) (by omega))
  have hentry : (Block.resetFor c).wide (.base i) = natToLimbs c.nl (defaultBases.getD i 0) := by
    simp [Block.wide, Block.resetFor, hi]
  rw [Block.value, hentry, limbsToNat_natToLimbs hfit]

theorem resetFor_ctrl_word (c : Config) : (Block.resetFor c).portRead (ctrlAddr .ctrl) = 0 := by
  rw [portRead_ctrlAddr]
  exact (by decide : Ctrl.toWord ⟨false, false⟩ = 0)

theorem resetFor_nbases_word (c : Config) :
    (Block.resetFor c).portRead (ctrlAddr .nbases) = 7 := by
  rw [portRead_ctrlAddr]
  exact (by decide : (0#24 ++ 7#8 : Word) = 7)

theorem resetFor_statusWord (c : Config) : (Block.resetFor c).statusWord = 0 := by
  rw [statusWord_eq, resetFor_status]
  decide

theorem zero_append_toNat {m n : Nat} (x : BitVec n) : (0#m ++ x).toNat = x.toNat := by
  simp [BitVec.toNat_append]

/-- The two numbers in `CONFIG` do not overlap (R31). -/
theorem configWord_toNat {c : Config} (hc : c.Legal) :
    (configWord c).toNat = c.nl + 256 * c.nbMax := by
  obtain ⟨⟨-, hnl⟩, -, hnb⟩ := hc
  have hlow : (BitVec.ofNat 8 c.nl).toNat = c.nl := by rw [BitVec.toNat_ofNat]; omega
  have hhigh : (0#16 ++ BitVec.ofNat 8 c.nbMax).toNat = c.nbMax := by
    rw [zero_append_toNat, BitVec.toNat_ofNat]
    omega
  calc (configWord c).toNat
      = c.nbMax <<< 8 ||| c.nl := by
        rw [← hlow, ← hhigh]
        exact BitVec.toNat_append _ _
    _ = c.nbMax <<< 8 + c.nl := (Nat.shiftLeft_add_eq_or_of_lt (by omega) _).symm
    _ = c.nl + 256 * c.nbMax := by rw [Nat.shiftLeft_eq]; omega

/-- Settles O6: every wide register holds the number stored in it, and each control word is read
off. -/
theorem resetState : Obligations.ResetState := by
  intro c hc b
  have h7 := hc.2.1
  have hbase {i : Nat} (hi : i < c.nbMax) := resetFor_base hc hi
  refine ⟨⟨value_zero rfl, value_zero rfl, value_zero rfl⟩,
    ⟨value_zero rfl, value_zero rfl, value_zero rfl⟩,
    ⟨hbase (by omega), hbase (by omega), hbase (by omega), hbase (by omega), hbase (by omega),
      hbase (by omega), hbase (by omega), fun i hi hlt => ?_⟩,
    resetFor_nbases_word c, resetFor_ctrl_word c, resetFor_statusWord c, rfl, rfl,
    portRead_ctrlAddr _ _, ?_, rfl⟩
  · exact (hbase hlt).trans (List.getD_eq_default _ _ hi)
  · rw [portRead_ctrlAddr]
    exact configWord_toNat hc

/-! ### The control registers, word by word -/

/-- Settles O20: the word kept is the written one's bits 1:0, and `CTRL` alone is written. -/
theorem ctrlRegister : Obligations.CtrlRegister := by
  intro b v
  refine ⟨fun h => ?_, fun h => portWrite_discarded h _ v, resetFor_ctrl_word⟩
  · rw [portWrite_ctrlAddr h]
    refine ⟨?_, rfl, keepsOutside_ctrlAddr .ctrl rfl (fun r => by cases r <;> rfl) ?_, rfl, rfl⟩
    · rw [portRead_ctrlAddr]
      exact ctrl_ofWord_toWord v
    · intro r hr
      cases r
      case ctrl => contradiction
      all_goals rfl

/-- Settles O21: bit by bit, a flag written 1 is cleared, and `STATUS` alone is written. -/
theorem statusWriteOneToClear : Obligations.StatusWriteOneToClear := by
  intro b v
  refine ⟨fun h => ?_, fun h => portWrite_discarded h _ v⟩
  rw [portWrite_ctrlAddr h]
  refine ⟨?_, keepsOutside_of_status b _ b.pending, rfl, rfl⟩
  rw [statusWord_eq, statusWord_eq]
  exact writeOneToClear_toWord b.status v

/-- `NBASES` stands in bits 7:0 of its word, the rest is 0 (R36). -/
theorem readCtrl_nbases_toNat (b : Block) : (b.readCtrl .nbases).toNat = b.nbases.toNat :=
  zero_append_toNat b.nbases

/-- Settles O22: the clamp fits in 8 bits because `NB_MAX` does, and `NBASES` alone is written. -/
theorem nbasesIsClamped : Obligations.NbasesIsClamped := by
  intro b v hb
  obtain ⟨⟨-, -, hmax⟩, ⟨-, -, -, hn⟩, -, -⟩ := hb
  refine ⟨fun h => ?_, fun h => portWrite_discarded h _ v, ?_, resetFor_nbases_word⟩
  · rw [portWrite_ctrlAddr h]
    refine ⟨?_, keepsOutside_ctrlAddr .nbases rfl (fun r => by cases r <;> rfl) ?_, rfl, rfl⟩
    · rw [portRead_ctrlAddr]
      apply BitVec.eq_of_toNat_eq
      simp only [readCtrl_nbases_toNat, Block.writeCtrl, clampBases, BitVec.toNat_ofNat]
      omega
    · intro r hr
      cases r
      case nbases => contradiction
      all_goals rfl
  · rwa [portRead_ctrlAddr, readCtrl_nbases_toNat]

/-- Settles O23: from the bits of the `STATUS` word. -/
theorem statusLayout : Obligations.StatusLayout := by
  intro b
  simp only [statusWord_eq]
  refine ⟨?_, ?_, ?_, ?_⟩
  · simp
  · apply BitVec.eq_of_getLsbD_eq
    intro i hi
    simp [toWord_getLsbD, hi]
  · simp
  · apply BitVec.eq_of_getLsbD_eq
    intro i hi
    simp [toWord_getLsbD, hi, show ¬ 16 + i < 8 by omega, show 8 ≤ 16 + i - 8 by omega]

/-- Settles O24: the parameters are in range, so that their two numbers fit side by side in
`CONFIG`, and no step changes them. -/
theorem identificationIsConstant : Obligations.IdentificationIsConstant := by
  intro s t h
  have hl := step_next_legal h
  have hw := configWord_toNat hl
  rw [portRead_ctrlAddr, portRead_ctrlAddr, portRead_ctrlAddr, portRead_ctrlAddr,
    Block.readCtrl, Block.readCtrl, Block.readCtrl, Block.readCtrl, step_config h]
  refine ⟨hl, rfl, rfl, ?_, ?_, ?_, rfl⟩
  · rw [BitVec.extractLsb'_toNat, hw, Nat.shiftRight_zero]
    omega
  · rw [BitVec.extractLsb'_toNat, hw, Nat.shiftRight_eq_div_pow]
    omega
  · apply BitVec.eq_of_toNat_eq
    rw [BitVec.extractLsb'_toNat, hw, Nat.shiftRight_eq_div_pow]
    change _ = 0
    omega

/-! ### The life of a command -/

/-- Settles O27: the write is an accept, which writes `PENDING` and `STATUS` alone. -/
theorem acceptStartsTheCommand : Obligations.AcceptStartsTheCommand := by
  intro b i h
  rw [portWrite_command h]
  refine ⟨rfl, rfl, ?_, keepsOutside_of_status b _ _, rfl⟩
  rw [statusWord_eq, statusWord_eq]
  exact accept_toWord b.status

/-- Settles O28: a port cycle sets `BUSY` only by an accept and does not clear it. -/
theorem phaseChangesOnlyByAcceptCompleteReset :
    Obligations.PhaseChangesOnlyByAcceptCompleteReset := by
  intro s t h
  obtain ⟨-, ⟨hr, rfl⟩ | ⟨-, hc, rfl⟩ | ⟨-, hc, hb, i, -, rfl⟩⟩ := step_cases h
  · exact ⟨fun _ ht => by simp [Status.reset] at ht, fun _ _ => .inl hr⟩
  · obtain ⟨-, hp⟩ | ⟨wa, -, hp⟩ | ⟨wa, v, he, hp⟩ := portCycle_cases s.nextEdge.pins s.advance <;>
      rw [hp]
    · exact ⟨fun h0 h1 => by simp [h0] at h1, fun h1 h0 => by simp [h1] at h0⟩
    · exact ⟨fun h0 h1 => by simp [h0] at h1, fun h1 h0 => by simp [h1] at h0⟩
    · refine ⟨fun h0 h1 => ?_, fun h1 h0 => ?_⟩
      · obtain ⟨rfl, i, rfl, hw⟩ := portWrite_becomes_busy h0 h1
        exact ⟨i, he, congrArg Block.pending hw⟩
      · simp [portWrite_busy h1, h1] at h0
  · exact ⟨fun h0 => by simp [hb] at h0, fun _ _ => .inr hc⟩

/-- Settles O29: a step with `Complete` is `exec` and the port cycle, which past the edges listed
does nothing. -/
theorem stepRunsTheCommandInFlight : Obligations.StepRunsTheCommandInFlight := by
  refine ⟨fun s i hl h => ?_, fun s i hl => ?_⟩
  · simp only [step_of_completesNow hl h, exec_eq, advance_block]
  · have hw : s.withFetchWord 32 (encode i).toNat = s.withCommand (some (encode i)) :=
      congrArg (fun o => s.withCommand o) (tableWord_toNat _)
    have hb : (s.withCommand (some (encode i))).block = s.block.accept (encode i) := by
      simp [Block.writeCmd, decode_encode]
    have hl' : (s.withCommand (some (encode i))).block.config.Legal := by rw [hb]; exact hl
    have hc : (s.withCommand (some (encode i))).CompletesNow i :=
      ⟨rfl, rfl, by rw [hb]; rfl, by rw [hb]; exact decode_encode i⟩
    rw [hw, step_of_completesNow hl' hc, exec_eq]
    rfl

/-- Settles O31: a command that fails raises, one that succeeds commits; and a step without
`Complete` is a port cycle, which writes no result. -/
theorem commandsAreAllOrNothing : Obligations.CommandsAreAllOrNothing := by
  refine ⟨fun i s hs hb => ?_, fun s t h hr hn => ?_⟩
  · obtain ⟨hd, he, hcode⟩ := flags_in_flight hs hb
    refine ⟨_, exec_eq i s, by simp, ⟨rfl, rfl, rfl⟩, ?_⟩
    rw [State.complete_block]
    rcases hr : resultsOf i s.block with k | r
    · refine .inr ⟨hd, rfl, ?_, .refl _⟩
      obtain ⟨rfl, -⟩ | ⟨rfl, -⟩ | ⟨rfl, -⟩ := resultsOf_error hr <;> simp [ErrorKind.code]
    · exact .inl ⟨rfl, he, hcode⟩
  · obtain ⟨-, hsame⟩ | ⟨i, hi, -⟩ := step_results h hr
    · exact hsame
    · exact absurd hi (hn i)

/-- Settles O32: a `Complete` writes results and `STATUS` alone. -/
theorem commandsKeepTheirOperands : Obligations.CommandsKeepTheirOperands := by
  intro i s
  refine ⟨_, exec_eq i s, by simp [Block.SameInputs], by simp, fun r h0 h1 h2 => ?_⟩
  cases r
  case res0 | res1 | res2 => contradiction
  all_goals simp [Block.value, Block.wide]

/-- Settles O33: a step's results are those before it or those of the one command that completes. -/
theorem primeBelongsToMrtest : Obligations.PrimeBelongsToMrtest := by
  intro s t h hr
  obtain ⟨hn, -, -, -, hp, -, -⟩ | ⟨i, hi, -, -, -, hp, -, -⟩ := step_results h hr
  · exact ⟨fun hm => absurd hm (hn _), fun _ => hp⟩
  · refine ⟨fun hm => ?_, fun hm => ?_⟩
    · obtain rfl := hi.unique hm
      exact hp.trans (complete_mrtest_prime _)
    · exact hp.trans (complete_keeps_prime _ (by rintro rfl; exact hm hi))

/-- Settles O34: only the `Complete` of XGCD reaches the signs, and it never fails, for its
coefficients fit. -/
theorem coefficientSignsBelongToXgcd : Obligations.CoefficientSignsBelongToXgcd := by
  intro s t hs h hr
  obtain ⟨hn, -, h1, h2, -, hx, hy⟩ | ⟨i, hi, -, h1, h2, -, hx, hy⟩ := step_results h hr
  · exact ⟨fun hm => absurd hm (hn _), fun _ => ⟨hx, hy, h1, h2⟩⟩
  · refine ⟨fun hm => ?_, fun hm => ?_⟩
    · obtain rfl := hi.unique hm
      obtain ⟨hsx, hsy⟩ := complete_xgcd_signs hs
      exact ⟨hx.trans hsx, hy.trans hsy⟩
    · obtain ⟨kx, ky, k1, k2⟩ :=
        complete_keeps_coefficients s.block (i := i) (by rintro rfl; exact hm hi)
      exact ⟨hx.trans kx, hy.trans ky, h1.trans k1, h2.trans k2⟩

/-- Settles O35: a changed result is one of the command that completes, which writes only its
own. -/
theorem resultRegistersChangeOnlyByTheirCommands :
    Obligations.ResultRegistersChangeOnlyByTheirCommands := by
  intro s t h hr
  obtain ⟨-, h0, h1, h2, -⟩ | ⟨i, hi, h0, h1, h2, -⟩ := step_results h hr
  · exact ⟨by simp [h1, h2], by simp [h0]⟩
  · refine ⟨fun hne => ?_, fun hne => ⟨i, ?_, hi⟩⟩
    · by_cases hx : i = .xgcd
      · exact hx ▸ hi
      · obtain ⟨-, -, k1, k2⟩ := complete_keeps_coefficients s.block hx
        simp [h1.trans k1, h2.trans k2] at hne
    · rintro rfl
      exact hne (h0.trans (complete_mrtest_res0 _))

/-- Settles O51: the command's function sees only its reads column, and in flight the flags of the
outcome are all clear. -/
theorem outcomeDependsOnlyOnWhatIsRead : Obligations.OutcomeDependsOnlyOnWhatIsRead := by
  intro i s s' t t' hs hs' hb hb' hag ht ht'
  rw [exec_eq] at ht ht'
  cases ht
  cases ht'
  obtain ⟨hd, he, hc⟩ := flags_in_flight hs hb
  obtain ⟨hd', he', hc'⟩ := flags_in_flight hs' hb'
  simp only [State.complete_block, resultsOf_congr hag]
  rcases hr : resultsOf i s.block with k | r
  · exact ⟨hd'.trans hd.symm, rfl, rfl, id, by simp⟩
  · have hcfg : s'.block.config = s.block.config := hag.1
    obtain ⟨-, hwp, hw0⟩ := resultsOf_writes hr
    refine ⟨rfl, he'.trans he.symm, hc'.trans hc.symm, ?_,
      fun _ => ⟨fun hi => ?_, fun hi => ?_, ?_⟩⟩
    · rintro ⟨h0, h1, h2, hp, hx, hy⟩
      simp [Block.SameResults, hcfg, h0, h1, h2, hp, hx, hy]
    · obtain ⟨n, hn⟩ := Option.ne_none_iff_exists'.1 (hw0.2 hi)
      simp [hn, storeResult, hcfg]
    · obtain ⟨p, hp⟩ := Option.ne_none_iff_exists'.1 (hwp.2 hi)
      simp [hp]
    · rintro rfl
      rw [resultsOf, xgcdResults_ok hs] at hr
      cases hr
      simp [storeResult, hcfg]

/-- Settles O52: the accept puts the command in flight on its operands, and a command in flight
comes to its `Complete`. -/
theorem acceptedCommandCompletesOnItsOperands :
    Obligations.AcceptedCommandCompletesOnItsOperands := by
  rintro s i e es ⟨hs, hidle⟩ hes hiss hrst
  have hr : e.pins.rst = false := rst_of_event hiss
  have hstep : step s = .next { s.advance with block := s.block.accept (encode i) } := by
    have he : s.nextEdge = e := by simp [State.nextEdge, hes]
    rw [step_of_not_complete hs.1 (he ▸ hr) (.inr hidle), State.portCycle, he, hiss]
    simp [portWrite_command hidle]
  have hin : State.InFlight i { s.advance with block := s.block.accept (encode i) } :=
    ⟨hs.1, rfl, decode_encode i⟩
  obtain ⟨k, t, hk, hrun, ht, hcn, hsame, hres⟩ :=
    hin.run_to_completesNow (es := es) (by simp [hes]) hrst
  exact ⟨k + 1, t, _, by omega, by omega, (run_of_step hstep).trans hrun, hcn, hsame, hres,
    exec_eq i t.advance, step_of_completesNow ht.1 hcn⟩

end Sys2Proof.Machine

/-! ### The memory's statements: the address map, limbs, and the port beside a command in flight -/

namespace Sys2Proof.Machine

/-! #### The address map (R53, R54) -/

theorem ctrlAddr_toNat_le (r : CtrlName) : (ctrlAddr r).toNat ≤ 5 := by
  cases r <;> decide

/-- The last table entry has the highest number of a wide register. -/
theorem number_le_last {c : Config} {r : WideName} (hr : r.Exists c) :
    r.number ≤ 16 + c.nbMax - 1 := by
  cases r with
  | base i =>
    have hi : i < c.nbMax := hr
    simp only [WideName.number]
    omega
  | _ =>
    simp only [WideName.number]
    omega

/-- `limbAddr_toNat` in the whole window of the register. -/
theorem limbAddr_toNat_window {c : Config} (hc : c.Legal) {r : WideName} (hr : r.Exists c)
    {j : Nat} (hj : j < 128) : (limbAddr r j).toNat = 0x0400 + 0x80 * r.number + j := by
  have hn := number_lt hc hr
  simp only [limbAddr, BitVec.toNat_ofNat]
  omega

/-- A register's window holds its `NL` limbs and is reserved after them. -/
theorem target_window {c : Config} (hc : c.Legal) {r : WideName} (hr : r.Exists c) {j : Nat}
    (hj : j < 128) : target c (limbAddr r j) = if j < c.nl then .limb r j else .reserved := by
  have ha := limbAddr_toNat_window hc hr hj
  have hk : (limbAddr r j).toNat - 0x0400 = 0x80 * r.number + j := by omega
  have hd : (0x80 * r.number + j) / 0x80 = r.number := by omega
  have hm : (0x80 * r.number + j) % 0x80 = j := by omega
  rw [target_high (by omega), hk, windowTarget, hd, hm, wideOfNumber_number hr]

/-- A mapped address is a control register's or a limb's. -/
theorem mapped_cases {c : Config} {wa : WordAddr} (h : target c wa ≠ .reserved) :
    (∃ r, wa = ctrlAddr r) ∨ ∃ r j, r.Exists c ∧ j < c.nl ∧ wa = limbAddr r j := by
  rcases ht : target c wa with r | ⟨r, j⟩ | _
  · exact .inl ⟨r, ctrlAddr_of_target ht⟩
  · obtain ⟨hwa, hr, hj⟩ := limbAddr_of_target ht
    exact .inr ⟨r, j, hr, hj, hwa⟩
  · exact absurd ht h

/-- Settles O12: the windows are read off, and the highest address is the last limb of the last
table entry, since no register has a higher number. -/
theorem addressMap : Obligations.AddressMap := by
  intro c hc
  refine ⟨⟨rfl, rfl, rfl, rfl, rfl, rfl⟩, ⟨rfl, rfl, rfl, rfl, rfl, rfl, fun _ => rfl⟩,
    fun r j hr hj => ⟨limbAddr_toNat_window hc hr hj, target_window hc hr hj⟩, fun wa hwa => ?_⟩
  have ⟨⟨_, hnl⟩, _, hnb⟩ := hc
  obtain ⟨r, rfl⟩ | ⟨r, j, hr, hj, rfl⟩ := mapped_cases hwa
  · have h5 := ctrlAddr_toNat_le r
    exact ⟨.inl h5, by omega, by omega⟩
  · have ha := limbAddr_toNat hc hr hj
    have hn := number_le_last hr
    exact ⟨.inr ⟨r, j, hr, hj, rfl⟩, by omega, by omega⟩

/-! #### Writes that take nothing (R59 to R61) -/

/-- Settles O13: by `target` the read is 0 and the write leaves the block. -/
theorem reservedAddressesAreInert : Obligations.ReservedAddressesAreInert := by
  intro b wa v h
  refine ⟨?_, fun hb => ?_, fun hb => portWrite_discarded hb wa v⟩
  · simp [Block.portRead, h]
  · simp [Block.portWrite, h, hb]

/-- A result register takes no limb from the host. -/
theorem portWrite_result {b : Block} {r : WideName} {wa : WordAddr} (hb : b.status.busy = false)
    (hc : b.config.Legal) (hr : r.Exists b.config) (hro : r.writable = false)
    (hwa : inRegister b.config r wa) (v : Word) : b.portWrite wa v = b := by
  obtain ⟨j, hj, rfl⟩ := hwa
  simp [portWrite_limbAddr hb hc hr hj, Block.writeLimb, hro]

/-- Settles O14: `ID`, `CONFIG` and each of the three result registers is read only. -/
theorem readOnlyRegistersKeep : Obligations.ReadOnlyRegistersKeep := by
  intro b wa v hc hwa
  refine ⟨fun hb => ?_, fun hb => portWrite_discarded hb wa v⟩
  obtain rfl | rfl | h | h | h := hwa
  · exact portWrite_ctrlAddr hb .id v
  · exact portWrite_ctrlAddr hb .config v
  · exact portWrite_result hb hc trivial rfl h v
  · exact portWrite_result hb hc trivial rfl h v
  · exact portWrite_result hb hc trivial rfl h v

/-- Settles O15: in flight `portWrite` looks at no address and sets `BUSYWR` alone. -/
theorem writesWhileBusyAreDiscarded : Obligations.WritesWhileBusyAreDiscarded :=
  fun _ wa v h => portWrite_discarded h wa v

/-! #### The limbs of a register (R21 to R23, R56) -/

/-- A register that exists has `NL` limbs. -/
theorem wide_length {b : Block} (hs : b.Shape) {r : WideName} (hr : r.Exists b.config) :
    (b.wide r).length = b.config.nl := by
  obtain ⟨⟨ha, hb, hm⟩, ⟨h0, h1, h2⟩, ⟨hlen, hall⟩, -⟩ := hs
  cases r with
  | opa => exact ha
  | opb => exact hb
  | opm => exact hm
  | res0 => exact h0
  | res1 => exact h1
  | res2 => exact h2
  | base i =>
    have hi : i < b.base.length := hlen ▸ hr
    rw [Block.wide, List.getD_eq_getElem _ _ hi]
    exact hall _ (List.getElem_mem hi)

/-- `limbsToNat` as the sum R56 writes. -/
theorem limbsToNat_eq_sum (l : Limbs) :
    ((List.range l.length).map fun j => (l.getD j 0).toNat * 2 ^ (32 * j)).sum = limbsToNat l := by
  induction l with
  | nil => rfl
  | cons w ws ih =>
    have hshift : ∀ j, (ws.getD j 0).toNat * 2 ^ (32 * (j + 1)) =
        2 ^ 32 * ((ws.getD j 0).toNat * 2 ^ (32 * j)) := fun j => by ring
    simp only [List.length_cons, List.range_succ_eq_map, List.map_cons, List.map_map, List.sum_cons,
      Function.comp_def, Nat.succ_eq_add_one, List.getD_cons_zero, List.getD_cons_succ, hshift,
      List.sum_map_mul_left, ih, limbsToNat, Nat.mul_zero, pow_zero, Nat.mul_one]

/-- Settles O19: the words read are the register's limbs, and `NL` of them are below `2^W`. -/
theorem regReadReturnsTheNumber : Obligations.RegReadReturnsTheNumber := by
  rintro b r ⟨hc, hs, -, -⟩ hr
  have hlen := wide_length hs hr
  refine ⟨?_, ?_⟩
  · rw [Block.value, ← limbsToNat_eq_sum, hlen]
    refine congrArg List.sum (List.map_congr_left fun j hj => ?_)
    rw [portRead_limbAddr hc hr (List.mem_range.1 hj)]
  · rw [Config.width, ← hlen]
    exact limbsToNat_lt _

/-! #### Limb writes (R57) -/

theorem writable_of_ne {r : WideName} (h0 : r ≠ .res0) (h1 : r ≠ .res1) (h2 : r ≠ .res2) :
    r.writable = true := by
  cases r
  case res0 | res1 | res2 => contradiction
  all_goals rfl

@[simp] theorem readCtrl_setWide (b : Block) (r : WideName) (l : Limbs) (n : CtrlName) :
    (b.setWide r l).readCtrl n = b.readCtrl n := by
  cases n <;> simp [Block.readCtrl]

@[simp] theorem setWide_setWide (b : Block) (r : WideName) (l l' : Limbs) :
    (b.setWide r l).setWide r l' = b.setWide r l' := by
  cases r <;> simp [Block.setWide]

@[simp] theorem setWide_wide (b : Block) (r : WideName) : b.setWide r (b.wide r) = b := by
  cases r with
  | base i =>
    have hself : b.base.set i (b.base.getD i []) = b.base := by
      rcases Nat.lt_or_ge i b.base.length with hi | hi
      · rw [List.getD_eq_getElem _ _ hi, List.set_getElem_self]
      · exact List.set_eq_of_length_le hi
    simp only [Block.setWide, Block.wide, hself]
  | _ => rfl

/-- `wide_setWide_self` in a block whose registers have their widths. -/
theorem wide_setWide {b : Block} (hs : b.Shape) {r : WideName} (hr : r.Exists b.config)
    (l : Limbs) : (b.setWide r l).wide r = l := by
  obtain ⟨-, -, ⟨hlen, -⟩, -⟩ := hs
  refine wide_setWide_self l ?_
  rintro i rfl
  exact hlen ▸ hr

theorem setWide_keepsHidden (b : Block) (r : WideName) (l : Limbs) :
    b.KeepsHidden (b.setWide r l) := by
  simp [Block.KeepsHidden]

/-- New limbs in a register show at the addresses of those that differ and nowhere else. -/
theorem setWide_keepsOutside {b : Block} (hs : b.Shape) {r : WideName} (hr : r.Exists b.config)
    {l : Limbs} {changed : WordAddr → Prop}
    (h : ∀ j, j < b.config.nl → ¬ changed (limbAddr r j) → l.getD j 0 = (b.wide r).getD j 0) :
    b.KeepsOutside changed (b.setWide r l) := by
  intro wa hwa
  refine portRead_congr wa (by simp) (fun r' j ht => ?_) (by simp)
  obtain ⟨rfl, -, hj⟩ := limbAddr_of_target ht
  by_cases hrr : r' = r
  · subst hrr
    rw [wide_setWide hs hr]
    exact h j hj hwa
  · rw [wide_setWide_other l hrr]

/-- In phase IDLE a write to a limb of an operand or a table entry sets that limb. -/
theorem portWrite_writable_limb {b : Block} (hb : b.status.busy = false) (hc : b.config.Legal)
    {r : WideName} (hr : r.Exists b.config) (hrw : r.writable = true) {j : Nat}
    (hj : j < b.config.nl) (v : Word) :
    b.portWrite (limbAddr r j) v = b.setWide r ((b.wide r).set j v) := by
  rw [portWrite_limbAddr hb hc hr hj, Block.writeLimb, if_pos hrw]

/-- Settles O17: the write sets one limb of one register. -/
theorem limbWriteIsLocal : Obligations.LimbWriteIsLocal := by
  intro b r j v hwf hb hr h0 h1 h2 hj
  obtain ⟨hc, hs, -, -⟩ := hwf
  rw [portWrite_writable_limb hb hc hr (writable_of_ne h0 h1 h2) hj]
  refine ⟨?_, setWide_keepsOutside hs hr fun i _ hi => ?_, setWide_keepsHidden b r _⟩
  · rw [portRead_limbAddr (by simpa using hc) (by simpa using hr) (by simpa using hj),
      wide_setWide hs hr, List.getD_eq_getElem?_getD,
      List.getElem?_set_self ((wide_length hs hr).symm ▸ hj), Option.getD_some]
  · have hij : j ≠ i := fun h => hi (h ▸ rfl)
    rw [List.getD_eq_getElem?_getD, List.getElem?_set_ne hij, ← List.getD_eq_getElem?_getD]

/-! #### `RegWrite` (R57) -/

/-- The limbs `js` of a register's contents replaced, one after another, by those of `v`. -/
def setLimbs (v : Nat) (js : List Nat) (l : Limbs) : Limbs :=
  js.foldl (fun l j => l.set j (limbOf v j)) l

@[simp] theorem setLimbs_length (v : Nat) (js : List Nat) (l : Limbs) :
    (setLimbs v js l).length = l.length := by
  induction js generalizing l with
  | nil => rfl
  | cons j js ih => exact (ih _).trans List.length_set

/-- In whatever order: a limb that is replaced is that of `v`. -/
theorem setLimbs_getD (v : Nat) (js : List Nat) (l : Limbs) {i : Nat} (hi : i < l.length) :
    (setLimbs v js l).getD i 0 = if i ∈ js then limbOf v i else l.getD i 0 := by
  induction js generalizing l with
  | nil => simp [setLimbs]
  | cons j js ih =>
    have hset : (l.set j (limbOf v j)).getD i 0 = if i = j then limbOf v i else l.getD i 0 := by
      rw [List.getD_eq_getElem?_getD, List.getElem?_set]
      by_cases hij : i = j
      · subst hij
        simp [hi]
      · simp [hij, Ne.symm hij]
    have h := ih (l.set j (limbOf v j)) (by simpa using hi)
    rw [hset] at h
    refine h.trans ?_
    by_cases hj : i ∈ js <;> by_cases hij : i = j <;> simp [hj, hij]

/-- All the limbs replaced, in any order, are the limbs of `v`. -/
theorem setLimbs_all {v n : Nat} {js : List Nat} {l : Limbs} (hl : l.length = n)
    (hjs : js.Perm (List.range n)) : setLimbs v js l = natToLimbs n v := by
  refine List.ext_getElem (by simp [hl]) fun i hi hi' => ?_
  have hin : i < n := by simpa using hi'
  rw [← List.getD_eq_getElem _ 0 hi, ← List.getD_eq_getElem _ 0 hi', natToLimbs_getD v hin,
    setLimbs_getD v js l (hl ▸ hin), if_pos (hjs.mem_iff.2 (List.mem_range.2 hin))]

theorem applyAll_wf {b : Block} (es : List PortEvent) (h : b.WF) : (b.applyAll es).WF := by
  induction es generalizing b with
  | nil => exact h
  | cons e es ih =>
    cases e with
    | write wa v => exact ih (portWrite_wf wa v h)
    | read wa => exact ih h

/-- The limb writes of `RegWrite`, all or some of them and in any order, on one register. -/
theorem applyAll_limbWrites {r : WideName} (hrw : r.writable = true) (v : Nat) {js : List Nat}
    {b : Block} (hwf : b.WF) (hb : b.status.busy = false) (hr : r.Exists b.config)
    (hjs : ∀ j ∈ js, j < b.config.nl) :
    b.applyAll (js.map fun j => .write (limbAddr r j) (limbOf v j)) =
      b.setWide r (setLimbs v js (b.wide r)) := by
  induction js generalizing b with
  | nil => exact (setWide_wide b r).symm
  | cons j js ih =>
    obtain ⟨hj, hjs⟩ := List.forall_mem_cons.1 hjs
    have ⟨hc, hs, _, _⟩ := hwf
    have hstep := portWrite_writable_limb hb hc hr hrw hj (limbOf v j)
    have hwf' := hstep ▸ portWrite_wf (limbAddr r j) (limbOf v j) hwf
    have h := ih hwf' (by simpa using hb) (by simpa using hr) (by simpa using hjs)
    rw [wide_setWide hs hr, setWide_setWide, ← hstep] at h
    exact h

/-- `RegWrite(name, v)`, its limbs in any order, puts the limbs of `v` in the register. -/
theorem applyAll_regWrite {b : Block} {r : WideName} {v : Nat} {es : List PortEvent} (hwf : b.WF)
    (hb : b.status.busy = false) (hr : r.Exists b.config) (hrw : r.writable = true)
    (hes : es.Perm (regWrite b.config r v)) :
    b.applyAll es = b.setWide r (natToLimbs b.config.nl v) := by
  have ⟨_, hs, _, _⟩ := hwf
  obtain ⟨js, rfl, hjs⟩ :=
    (congrFun₂ (List.eq_map_comp_perm _) es (List.range b.config.nl)).mpr hes
  rw [applyAll_limbWrites hrw v hwf hb hr fun j hj => List.mem_range.1 (hjs.mem_iff.1 hj),
    setLimbs_all (wide_length hs hr) hjs]

/-- Settles O18: the register's contents are replaced by the limbs of the number, and every write
keeps the invariant. -/
theorem regWriteStoresTheNumber : Obligations.RegWriteStoresTheNumber := by
  intro b r v es hwf hb hr h0 h1 h2 hv hes
  have hwf' := applyAll_wf es hwf
  have h := applyAll_regWrite hwf hb hr (writable_of_ne h0 h1 h2) hes
  rw [h] at hwf' ⊢
  obtain ⟨-, hs, -, -⟩ := hwf
  refine ⟨?_, hwf', setWide_keepsOutside hs hr fun j hj hout => ?_, setWide_keepsHidden b r _⟩
  · rw [Block.value, wide_setWide hs hr, limbsToNat_natToLimbs hv]
  · exact absurd ⟨j, hj, rfl⟩ hout

/-! #### The port cycle of an edge (R62, R63) -/

theorem portCycle_read {p : Pins} {wa : WordAddr} (h : p.event = some (.read wa)) (s : State) :
    s.portCycle p = { s with reads := s.reads ++ [s.block.portRead wa] } := by
  simp [State.portCycle, State.rdata, h]

theorem portCycle_write {p : Pins} {wa : WordAddr} {v : Word} (h : p.event = some (.write wa v))
    (s : State) : s.portCycle p = { s with block := s.block.portWrite wa v } := by
  simp [State.portCycle, h]

/-- An edge without a write adds the word it reads, if it reads, to the record. -/
theorem portCycle_writesNothing {e : Edge} (h : e.WritesNothing) (s : State) :
    s.portCycle e.pins = { s with reads := s.reads ++ (e.readFrom s.block).toList } := by
  obtain ⟨-, hw⟩ := h
  obtain ⟨he, h⟩ | ⟨wa, he, h⟩ | ⟨wa, v, he, -⟩ := portCycle_cases e.pins s
  · simp [h, Edge.readFrom, he]
  · simp [h, Edge.readFrom, he]
  · exact absurd he (hw wa v)

/-- Settles O16, by induction on the edges: each adds its word to the record alone. -/
theorem readsLeaveNoTrace : Obligations.ReadsLeaveNoTrace := by
  intro s k hl hk he
  induction k generalizing s with
  | zero => exact ⟨s, rfl, rfl, by simp⟩
  | succ k ih =>
    obtain ⟨e, es, hes⟩ := List.exists_cons_of_length_pos (Nat.zero_lt_of_lt hk)
    have hnext : s.nextEdge = e := by simp [State.nextEdge, hes]
    rw [hes, List.take_succ_cons, List.forall_mem_cons] at he
    obtain ⟨⟨hw, hc⟩, hrest⟩ := he
    have hstep := step_of_not_complete hl (hnext ▸ hw.1) (hnext ▸ hc)
    rw [hnext, portCycle_writesNothing hw] at hstep
    obtain ⟨t, hrun, hb, hr⟩ := ih
      { s.advance with reads := s.reads ++ (e.readFrom s.block).toList } hl
      (by simpa [hes] using hk) (by simpa [hes] using hrest)
    refine ⟨t, (run_of_step hstep).trans hrun, hb, hr.trans ?_⟩
    cases hread : e.readFrom s.block <;> simp [hes, hread]

/-- Settles O30: the port cycle is that of the machine the `Complete` leaves, which is in phase
IDLE. -/
theorem completeComesFirstAtAnEdge : Obligations.CompleteComesFirstAtAnEdge := by
  intro s i hs hi
  have hstep := step_of_completesNow hs.1 hi
  refine ⟨_, exec_eq i s.advance, complete_busy _ _, fun wa he => ?_, fun wa v he => ?_,
    fun j he => ?_⟩
  · rw [hstep, portCycle_read he]
    rfl
  · rw [hstep, portCycle_write he]
    rfl
  · rw [hstep, portCycle_write he, State.complete_block, portWrite_command (complete_busy _ _)]
    exact ⟨_, rfl, rfl, rfl, complete_busywr _ _⟩

/-! #### A port cycle in flight (R61) -/

/-- While a command is in flight a port cycle writes no register but `STATUS`. -/
theorem portCycle_in_flight {s : State} (hb : s.block.status.busy = true) (p : Pins) :
    ∃ t, (s.portCycle p).block = { s.block with status := t } := by
  obtain ⟨-, h⟩ | ⟨wa, -, h⟩ | ⟨wa, v, -, h⟩ := portCycle_cases p s <;> rw [h]
  · exact ⟨_, rfl⟩
  · exact ⟨_, rfl⟩
  · exact ⟨_, portWrite_busy hb wa v⟩

/-- Settles O36: the step is a port cycle in flight. -/
theorem operandsAreImmutableInFlight : Obligations.OperandsAreImmutableInFlight := by
  intro s t h hr hb hn
  obtain ⟨-, ⟨hr', -⟩ | ⟨-, -, rfl⟩ | ⟨-, hc, -, i, hi, -⟩⟩ := step_cases h
  · simp [hr] at hr'
  · obtain ⟨f, hf⟩ := portCycle_in_flight (s := s.advance) hb s.nextEdge.pins
    rw [hf]
    exact ⟨⟨rfl, rfl, rfl, rfl, rfl, rfl⟩, rfl, rfl⟩
  · exact absurd ⟨hr, hc, hb, hi⟩ (hn i)

end Sys2Proof.Machine

/-! ### The encoding's statements: the opcode map, and what is no command -/

namespace Sys2Proof

/-! #### A word and the command it encodes (R70 to R76) -/

/-- Settles O1: a word is its three fields, and those of a decoded word are its command's. -/
theorem decodeInvertsEncode : Obligations.DecodeInvertsEncode := by
  intro w i
  refine ⟨eq_encode_of_decode, ?_⟩
  rintro rfl
  exact decode_encode i

/-- Bits 7:0, `OPC`: the unit's number and the function's (R71). -/
def opcField (w : Word) : BitVec 8 := w.extractLsb' 0 8

theorem opcField_eq (w : Word) : opcField w = unitField w ++ funcField w :=
  (BitVec.extractLsb'_append_extractLsb'_eq_extractLsb' (show 4 = 0 + 4 from rfl)).symm

/-- A command's word by its fields: `ZERO = 0`, and `OPC` the command's (R70, R71). -/
theorem eq_encode_iff_fields (w : Word) (i : Instr) :
    w = encode i ↔ zeroField w = 0 ∧ opcField w = i.unit.code ++ i.func := by
  constructor
  · rintro rfl
    obtain ⟨hz, hu, hf, -⟩ := Laws.Encoding.all i
    rw [opcField_eq, hu, hf]
    exact ⟨hz, rfl⟩
  · rintro ⟨hz, ho⟩
    rw [← fields_append w, hz, encode, BitVec.append_assoc, ← opcField_eq, ho, BitVec.append_assoc]
    rfl

/-- The seven values of `OPC` are the commands' (R75). -/
theorem opc_listed_iff (o : BitVec 8) :
    o ∈ ([0x10, 0x11, 0x20, 0x30, 0x31, 0x32, 0x40] : List (BitVec 8)) ↔
      ∃ i : Instr, o = i.unit.code ++ i.func := by
  constructor
  · intro h
    simp only [List.mem_cons, List.not_mem_nil, or_false] at h
    obtain rfl | rfl | rfl | rfl | rfl | rfl | rfl := h
    · exact ⟨.mulmod, rfl⟩
    · exact ⟨.montmul, rfl⟩
    · exact ⟨.modexp, rfl⟩
    · exact ⟨.gcd, rfl⟩
    · exact ⟨.xgcd, rfl⟩
    · exact ⟨.modinv, rfl⟩
    · exact ⟨.mrtest, rfl⟩
  · rintro ⟨i, rfl⟩
    cases i <;> decide

/-! #### The opcode map (R75) -/

/-- A command's row of the opcode map. -/
def Instr.row (i : Instr) : OpcodeRow := { instr := i, pattern := encode i, mask := 0xFFFFFFFF }

/-- The rows of the map are the commands' rows, one for each. -/
theorem mem_opcodeMap_iff (r : OpcodeRow) : r ∈ opcodeMap ↔ ∃ i : Instr, r = i.row := by
  constructor
  · intro h
    simp only [opcodeMap, List.mem_cons, List.not_mem_nil, or_false] at h
    obtain rfl | rfl | rfl | rfl | rfl | rfl | rfl := h <;> exact ⟨_, rfl⟩
  · rintro ⟨i, rfl⟩
    cases i <;> decide

/-- The mask is of all ones: a row matches its pattern alone. -/
theorem row_matches_iff (i : Instr) (v : Word) : i.row.Matches v ↔ v = encode i := by
  have h : v &&& 0xFFFFFFFF = v := BitVec.and_allOnes
  simp only [OpcodeRow.Matches, Instr.row, h]

/-- Settles O2: each row of the map is a command's, and by its fields a word is a command's word. -/
theorem opcodeMapIsTheDecoder : Obligations.OpcodeMapIsTheDecoder := by
  intro v
  refine ⟨fun i => ?_, ?_, fun r hr => ?_⟩
  · rw [decodeInvertsEncode]
    constructor
    · intro h
      exact ⟨i.row, (mem_opcodeMap_iff _).2 ⟨i, rfl⟩, rfl, (row_matches_iff i v).2 h⟩
    · rintro ⟨r, hr, rfl, hm⟩
      obtain ⟨i, rfl⟩ := (mem_opcodeMap_iff r).1 hr
      exact (row_matches_iff i v).1 hm
  · simp only [decodeInvertsEncode v, eq_encode_iff_fields, exists_and_left]
    exact and_congr_right fun _ => (opc_listed_iff _).symm
  · obtain ⟨i, rfl⟩ := (mem_opcodeMap_iff r).1 hr
    obtain ⟨-, hu, -⟩ := Laws.Encoding.all i
    exact hu

/-- Settles O5: the four commands are their encoder's words; the three other words fail at `FUNC`, at
`UNIT` and at `ZERO`. -/
theorem wordsWrittenOutDecode : Obligations.WordsWrittenOutDecode :=
  ⟨decode_encode .montmul, decode_encode .modexp, decode_encode .modinv, decode_encode .mrtest,
    by decide, by decide, by decide⟩

end Sys2Proof

namespace Sys2Proof.Machine

/-! #### Words that are no command (R74) -/

/-- A word that is no command, written to `CMD` in phase IDLE, is rejected (R155). -/
theorem portWrite_illegal {b : Block} (h : b.status.busy = false) {v : Word} {x : IllegalWord}
    (hv : decode v = .error x) : b.portWrite (ctrlAddr .cmd) v = b.rejectCommand := by
  simp [portWrite_ctrlAddr h, Block.writeCtrl, Block.writeCmd, hv]

/-- Settles O3: a word that decodes is a row's, and the write of one that does not is a rejection. -/
theorem unlistedWordsAreIllegal : Obligations.UnlistedWordsAreIllegal := by
  intro v hv
  rcases hd : decode v with x | i
  · refine ⟨⟨x, rfl⟩, fun b hb => ?_⟩
    rw [portWrite_illegal hb hd]
    exact ⟨hb, rfl, rfl⟩
  · exact absurd (eq_encode_of_decode hd) (hv i.row ((mem_opcodeMap_iff _).2 ⟨i, rfl⟩))

end Sys2Proof.Machine

/-! ### The host's statements: what one edge of each line does -/

namespace Sys2Proof.Machine

/-! #### A line at its edge

`session_step` by the line the host is at, for each kind of event the line can make. -/

section Line
variable {p : HostProgram} {x : Session} {line : HostLine}

theorem host_pins_of_line (hl : p[x.host.line]? = some line) (c : Config) :
    x.host.pins c p = line.pins c x.host := by
  simp [HostState.pins, hl]

theorem host_after_of_line (hl : p[x.host.line]? = some line) (c : Config) (w : Word) :
    x.host.after c p w = line.after c p x.host w := by
  simp [HostState.after, hl]

/-- A line with an event presents that event's pins. -/
theorem line_pins_of_event {c : Config} {h : HostState} {e : PortEvent}
    (he : line.event c h = some e) : line.pins c h = e.pins := by
  cases line
  case reset => cases he
  all_goals simp [HostLine.pins, he]

/-- A line without an event, other than `RESET`, makes no access. -/
theorem line_pins_quiet {c : Config} {h : HostState} (hne : line ≠ .reset)
    (he : line.event c h = none) : line.pins c h = quietPins := by
  cases line
  case reset => contradiction
  all_goals simp [HostLine.pins, he]

theorem session_step_write (hx : x.machine.Inv) (hl : p[x.host.line]? = some line) (c : Bool)
    {wa : WordAddr} {v : Word}
    (he : line.event x.machine.block.config x.host = some (.write wa v)) :
    ∃ y w, x.step p c = .next y ∧ y.machine.Inv ∧
      y.machine.block.config = x.machine.block.config ∧
      y.machine.block = (x.machine.block.settle c).portWrite wa v ∧
      y.trace = x.trace ++ [⟨.write wa v, none⟩] ∧
      y.host = line.after x.machine.block.config p x.host w := by
  have hp := (host_pins_of_line hl _).trans (line_pins_of_event he)
  obtain ⟨y, hy, hinv, hc, -, hrun⟩ := session_step hx p c
  rw [hp] at hrun
  obtain ⟨-, hwrite, -⟩ := hrun (rst_pins _)
  obtain ⟨hb, ht, w, hh⟩ := hwrite wa v (event_pins _)
  exact ⟨y, w, hy, hinv, hc, hb, ht, hh.trans (host_after_of_line hl _ _)⟩

theorem session_step_read (hx : x.machine.Inv) (hl : p[x.host.line]? = some line) (c : Bool)
    {wa : WordAddr} (he : line.event x.machine.block.config x.host = some (.read wa)) :
    ∃ y, x.step p c = .next y ∧ y.machine.Inv ∧
      y.machine.block = x.machine.block.settle c ∧
      y.trace = x.trace ++ [⟨.read wa, some (y.machine.block.portRead wa)⟩] ∧
      y.host =
        line.after x.machine.block.config p x.host (y.machine.block.portRead wa) := by
  have hp := (host_pins_of_line hl _).trans (line_pins_of_event he)
  obtain ⟨y, hy, hinv, -, -, hrun⟩ := session_step hx p c
  rw [hp] at hrun
  obtain ⟨-, -, hread⟩ := hrun (rst_pins _)
  obtain ⟨hb, ht, hh⟩ := hread wa (event_pins _)
  exact ⟨y, hy, hinv, hb, ht, hh.trans (host_after_of_line hl _ _)⟩

theorem session_step_quiet (hx : x.machine.Inv) (hl : p[x.host.line]? = some line) (c : Bool)
    (hne : line ≠ .reset) (he : line.event x.machine.block.config x.host = none) {h : HostState}
    (ha : ∀ w, line.after x.machine.block.config p x.host w = h) :
    ∃ y, x.step p c = .next y ∧ y.trace = x.trace ∧ y.host = h := by
  have hp := (host_pins_of_line hl _).trans (line_pins_quiet hne he)
  obtain ⟨y, hy, -, -, -, hrun⟩ := session_step hx p c
  rw [hp] at hrun
  obtain ⟨hquiet, -, -⟩ := hrun rfl
  obtain ⟨-, ht, w, hh⟩ := hquiet rfl
  exact ⟨y, hy, ht, (hh.trans (host_after_of_line hl _ _)).trans (ha w)⟩

theorem session_step_reset (hx : x.machine.Inv) (hl : p[x.host.line]? = some .reset) (c : Bool) :
    ∃ y, x.step p c = .next y ∧ y.trace = x.trace ∧ y.host = x.host.next ∧
      y.machine.block = Block.resetFor x.machine.block.config := by
  obtain ⟨y, hy, -, -, hreset, -⟩ := session_step hx p c
  rw [host_pins_of_line hl] at hreset
  obtain ⟨hb, ht, w, hh⟩ := hreset rfl
  exact ⟨y, hy, ht, hh.trans (host_after_of_line hl _ w), hb⟩

end Line

/-! #### Lines that run on the host alone, and `RESET` (R79) -/

/-- A jump leads to the line of its label, if the label stands at one line. -/
theorem jump_eq_goLine {p : HostProgram} {l : HostLabel} {n : Nat} (h : HostState)
    (hn : p[n]? = some (.label l)) (hone : p.count (.label l) = 1) :
    h.jump p l = h.goLine n := by
  obtain ⟨hlt, hat⟩ := List.getElem?_eq_some_iff.1 hn
  have hfirst : (p.findIdx fun line => line = .label l) = n := by
    refine (List.findIdx_eq hlt).2 ⟨by simp [hat], fun j hj => ?_⟩
    refine decide_eq_false fun hjl => ?_
    have hdup : List.Duplicate (.label l) p :=
      List.duplicate_iff_exists_distinct_get.2
        ⟨⟨j, hj.trans hlt⟩, ⟨n, hlt⟩, hj, hjl.symm, hat.symm⟩
    have htwo := List.duplicate_iff_two_le_count.1 hdup
    omega
  rw [HostState.jump, if_pos (List.mem_of_getElem? hn), hfirst]

/-- Settles O58: each line but `RESET` presents quiet pins, and `HostLine.after` says where it leads. -/
theorem hostOnlyLinesMakeNoEvent : Obligations.HostOnlyLinesMakeNoEvent := by
  intro p x c hx
  refine ⟨fun t e v hl hv => ?_, fun l n hl hn hone => ?_, fun cond l hl => ?_, fun hl => ?_,
    fun hl => session_step_reset hx hl c⟩
  · obtain ⟨y, hy, ht, hh⟩ := session_step_quiet hx hl c nofun rfl
      (h := (x.host.bind (some t) v).next) fun w => by rw [HostLine.after, hv]
    refine ⟨y, hy, ht, ?_, ?_, fun t' ht' => ?_⟩ <;> rw [hh]
    · simp
    · exact bind_lookup_self x.host t v
    · exact bind_lookup_other x.host v ht'
  · rw [← jump_eq_goLine x.host hn hone]
    obtain hl | ⟨cond, hl, hcond⟩ := hl
    · exact session_step_quiet hx hl c nofun rfl fun _ => rfl
    · exact session_step_quiet hx hl c nofun rfl fun _ => by rw [HostLine.after, hcond]
  · obtain hl | ⟨hl, hcond⟩ := hl
    · exact session_step_quiet hx hl c nofun rfl fun _ => rfl
    · exact session_step_quiet hx hl c nofun rfl fun _ => by rw [HostLine.after, hcond]
  · exact session_step_quiet hx hl c nofun rfl fun _ => rfl

/-! #### Lines of one event (R78, R79) -/

/-- An expression whose value is a word's number stands for that word. -/
theorem unsigned_of_word {env : HostEnv} {e : HostExpr} {k : Nat} {v : BitVec k}
    (h : e.eval env = some (v.toNat : Int)) : e.unsigned env k = some v.toNat :=
  unsigned_of_eval h v.isLt

/-- Settles O57: each line's event is the one given, and `HostLine.after` goes on, with the word
bound if it is a read. -/
theorem oneEventLines : Obligations.OneEventLines := by
  intro p x c hx
  refine ⟨fun line wa v hl hline => ?_, fun line wa t hl hline => ?_⟩
  · have hevent : line.event x.machine.block.config x.host = some (.write wa v) := by
      obtain ⟨a, e, rfl, ha, hv⟩ | ⟨e, rfl, rfl, hv⟩ | ⟨r, e, rfl, rfl, hv⟩ | ⟨i, rfl, rfl, rfl⟩ :=
        hline
      · simp [HostLine.event, unsigned_of_word ha, unsigned_of_word hv]
      · simp [HostLine.event, unsigned_of_word hv]
      · simp [HostLine.event, unsigned_of_word hv]
      · rfl
    have hafter : ∀ w, line.after x.machine.block.config p x.host w = x.host.next := by
      intro w
      obtain ⟨a, e, rfl, -⟩ | ⟨e, rfl, -⟩ | ⟨r, e, rfl, -⟩ | ⟨i, rfl, -⟩ := hline <;>
        simp [HostLine.after, hevent]
    obtain ⟨y, w, hy, -, -, -, ht, hh⟩ := session_step_write hx hl c hevent
    exact ⟨y, hy, hh.trans (hafter w), ht⟩
  · have hevent : line.event x.machine.block.config x.host = some (.read wa) := by
      obtain ⟨a, rfl, ha⟩ | ⟨r, rfl, rfl⟩ := hline
      · simp [HostLine.event, unsigned_of_word ha]
      · rfl
    have hafter : ∀ w : Word, line.after x.machine.block.config p x.host w =
        (x.host.bind (some t) w.toNat).next := by
      intro w
      obtain ⟨a, rfl, -⟩ | ⟨r, rfl, -⟩ := hline <;> simp [HostLine.after, hevent]
    obtain ⟨y, hy, -, -, ht, hh⟩ := session_step_read hx hl c hevent
    rw [hafter] at hh
    refine ⟨y, hy, ?_, ?_, ht⟩ <;> rw [hh]
    · simp
    · exact bind_lookup_self _ _ _

/-! #### Runs of a program by an invariant -/

theorem session_run_append {p : HostProgram} {ps qs : List Bool} {x y : Session}
    (h : Session.run p ps x = .next y) : Session.run p (ps ++ qs) x = Session.run p qs y := by
  induction ps generalizing x with
  | nil => cases h; rfl
  | cons c ps ih =>
    obtain ⟨z, hz, hrun⟩ := session_run_cons_cases h
    exact (session_run_cons hz).trans (ih hrun)

/-- A property of the session and of the count of edges that holds at the start and that every edge
keeps holds at the end of the run. -/
theorem session_run_of_steps {p : HostProgram} {ps : List Bool} {I : Nat → Session → Prop}
    (hstep : ∀ j y c, j < ps.length → c ∈ ps → I j y → ∃ z, y.step p c = .next z ∧ I (j + 1) z)
    {x : Session} (hx : I 0 x) : ∃ y, Session.run p ps x = .next y ∧ I ps.length y := by
  induction ps generalizing I x with
  | nil => exact ⟨x, rfl, hx⟩
  | cons c ps ih =>
    obtain ⟨z, hz, hI⟩ := hstep 0 x c (by simp) (by simp) hx
    obtain ⟨y, hy, hend⟩ := ih (I := fun j => I (j + 1))
      (fun j y d hj hd => hstep (j + 1) y d (by simpa using hj) (List.mem_cons_of_mem c hd)) hI
    exact ⟨y, (session_run_cons hz).trans hy, hend⟩

/-! #### `WAIT` (R79) -/

theorem statusWord_bit_zero (b : Block) : b.statusWord.getLsbD 0 = b.status.busy := by
  simp

/-- One poll: a read of `STATUS`, and on to the next line if the block it reads is in phase IDLE. -/
theorem session_step_wait {p : HostProgram} {x : Session} (hx : x.machine.Inv)
    (hl : p[x.host.line]? = some .wait) (c : Bool) :
    ∃ y, x.step p c = .next y ∧ y.machine.Inv ∧ y.machine.block = x.machine.block.settle c ∧
      y.trace = x.trace ++ [⟨.read (ctrlAddr .status), some y.machine.block.statusWord⟩] ∧
      y.host = if y.machine.block.status.busy then x.host else x.host.next := by
  obtain ⟨y, hy, hinv, hb, ht, hh⟩ := session_step_read hx hl c rfl
  refine ⟨y, hy, hinv, hb, ht, ?_⟩
  rw [← statusWord_bit_zero]
  exact hh

/-- `k` polls of `WAIT` have left the host and the block of `x` as they were. -/
structure Polled (x : Session) (k : Nat) (y : Session) : Prop where
  inv   : y.machine.Inv
  host  : y.host = x.host
  block : y.machine.block = x.machine.block
  trace : y.trace = x.trace ++
    List.replicate k ⟨.read (ctrlAddr .status), some x.machine.block.statusWord⟩

/-- The polls before the `Complete` of the command in flight. -/
theorem session_run_polls {p : HostProgram} {x : Session} (hx : x.machine.Inv)
    (hl : p[x.host.line]? = some .wait) (hb : x.machine.block.status.busy = true) (k : Nat) :
    ∃ y, Session.run p (List.replicate k false) x = .next y ∧ Polled x k y := by
  have h := session_run_of_steps (p := p) (ps := List.replicate k false) (I := Polled x)
    (fun j y c _ hc hy => ?_) ⟨hx, rfl, rfl, by simp⟩
  · rwa [List.length_replicate] at h
  · obtain rfl := List.eq_of_mem_replicate hc
    obtain ⟨z, hz, hinv, hblock, htrace, hhost⟩ :=
      session_step_wait hy.inv (hy.host ▸ hl) false
    rw [settle_false, hy.block] at hblock
    rw [hblock] at htrace hhost
    refine ⟨z, hz, hinv, ?_, hblock, ?_⟩
    · rw [hhost, if_pos hb, hy.host]
    · rw [htrace, hy.trace, List.replicate_succ', List.append_assoc]

/-- Settles O55: polls leave the block in flight as it is, and the poll at `Complete` reads the
block that `exec` leaves, in phase IDLE. -/
theorem waitPollsUntilNotBusy : Obligations.WaitPollsUntilNotBusy := by
  intro p x hx hl
  refine ⟨fun i k hb hi => ?_, fun c hb => ?_⟩
  · obtain ⟨y, hrun, hy⟩ := session_run_polls hx hl hb k
    obtain ⟨z, hz, -, hblock, htrace, hhost⟩ := session_step_wait hy.inv (hy.host ▸ hl) true
    rw [hy.block, settle_true hb hi] at hblock
    rw [hblock] at htrace hhost
    refine ⟨⟨y, hrun, hy.host, hy.block, (statusWord_bit_zero _).trans hb, hy.trace⟩, _, z,
      exec_eq i x.machine, ?_, ?_, hblock, ?_, ?_⟩
    · rw [session_run_append hrun, session_run_cons hz, Session.run]
    · rw [hhost, complete_busy, if_neg Bool.false_ne_true, hy.host]
    · exact (statusWord_bit_zero _).trans (complete_busy _ _)
    · rw [htrace, hy.trace, State.complete_block]
  · obtain ⟨z, hz, -, hblock, htrace, hhost⟩ := session_step_wait hx hl c
    rw [settle_idle c hb] at hblock
    rw [hblock] at htrace hhost
    exact ⟨z, hz, by rw [hhost, hb, if_neg Bool.false_ne_true], hblock, htrace⟩

end Sys2Proof.Machine

/-! ### Transfers of a wide register, limb by limb (R57, R79) -/

namespace Sys2Proof.Machine

/-! #### The host within a transfer -/

/-- The host after `j` limbs of the transfer that `h` begins, having read the number `acc`: still at
the line, or, with all of them done, at the next with `t` bound. -/
def HostState.atLimb (c : Config) (t : Option HostVar) (j acc : Nat) (h : HostState) : HostState :=
  if j < c.nl then { h with part := j, acc := acc } else (h.bind t acc).next

theorem atLimb_of_lt {c : Config} {j : Nat} (hj : j < c.nl) (t : Option HostVar) (acc : Nat)
    (h : HostState) : h.atLimb c t j acc = { h with part := j, acc := acc } :=
  if_pos hj

theorem atLimb_zero {c : Config} (hc : c.Legal) (t : Option HostVar) {h : HostState}
    (hpart : h.part = 0) (hacc : h.acc = 0) : h.atLimb c t 0 0 = h := by
  obtain ⟨line, part, acc, env⟩ := h
  cases hpart
  cases hacc
  exact atLimb_of_lt hc.1.1 t 0 _

theorem atLimb_end (c : Config) (t : Option HostVar) (acc : Nat) (h : HostState) :
    h.atLimb c t c.nl acc = (h.bind t acc).next :=
  if_neg (lt_irrefl _)

/-- A limb more: its word counts `2^(32j)`-fold. -/
theorem limbDone_atLimb {c : Config} {j : Nat} (hj : j < c.nl) (t : Option HostVar) (acc : Nat)
    (h : HostState) (w : Word) :
    (h.atLimb c t j acc).limbDone c t w = h.atLimb c t (j + 1) (acc + w.toNat * 2 ^ (32 * j)) := by
  rw [atLimb_of_lt hj]
  cases t <;> rfl

/-! #### `WR` of a wide register -/

/-- A limb write in phase IDLE, whatever the register, leaves the block in phase IDLE. -/
theorem portWrite_limb_idle {b : Block} (hc : b.config.Legal) {r : WideName}
    (hr : r.Exists b.config) {j : Nat} (hj : j < b.config.nl) (v : Word)
    (hb : b.status.busy = false) : (b.portWrite (limbAddr r j) v).status.busy = false := by
  rw [portWrite_limbAddr hb hc hr hj, writeLimb_status, hb]

/-- The first `j` of the events of `RegWrite(r, v)`. -/
def limbWrites (r : WideName) (v j : Nat) : List PortEvent :=
  (List.range j).map fun k => .write (limbAddr r k) (limbOf v k)

theorem regWrite_eq (c : Config) (r : WideName) (v : Nat) :
    regWrite c r v = limbWrites r v c.nl := rfl

theorem limbWrites_succ (r : WideName) (v j : Nat) :
    limbWrites r v (j + 1) = limbWrites r v j ++ [.write (limbAddr r j) (limbOf v j)] := by
  simp [limbWrites, List.range_succ]

/-- `WR r, v`, begun at `x`, has written `j` limbs. -/
structure WroteLimbs (r : WideName) (v : Nat) (x : Session) (j : Nat) (y : Session) : Prop where
  inv    : y.machine.Inv
  config : y.machine.block.config = x.machine.block.config
  host   : y.host = x.host.atLimb x.machine.block.config none j 0
  trace  : y.trace = x.trace ++ (limbWrites r v j).map (⟨·, none⟩)
  idle   : x.machine.block.status.busy = false → y.machine.block.status.busy = false ∧
    y.machine.block = x.machine.block.applyAll (limbWrites r v j)

theorem WroteLimbs.step {p : HostProgram} {x y : Session} {r : WideName} {e : HostExpr}
    {v j : Nat} (hl : p[x.host.line]? = some (.wrWide r e)) (hr : r.Exists x.machine.block.config)
    (he : e.unsigned x.host.env x.machine.block.config.width = some v)
    (hj : j < x.machine.block.config.nl) (hy : WroteLimbs r v x j y) (c : Bool) :
    ∃ z, y.step p c = .next z ∧ WroteLimbs r v x (j + 1) z := by
  have hhost := hy.host
  rw [atLimb_of_lt hj] at hhost
  have hevent : HostLine.event y.machine.block.config y.host (.wrWide r e) =
      some (.write (limbAddr r j) (limbOf v j)) := by
    simp [HostLine.event, hy.config, hhost, hr, he]
  obtain ⟨z, w, hz, hinv, hc, hblock, htrace, hh⟩ :=
    session_step_write hy.inv (by rw [hhost]; exact hl) c hevent
  refine ⟨z, hz, hinv, hc.trans hy.config, ?_, ?_, fun hb => ?_⟩
  · rw [hh, HostLine.after, hevent, Option.isSome_some, if_pos rfl, hy.config, hy.host,
      limbDone_atLimb hj]
    simp
  · rw [htrace, hy.trace, limbWrites_succ, List.map_append, List.append_assoc]
    rfl
  · obtain ⟨hyb, happ⟩ := hy.idle hb
    rw [settle_idle c hyb] at hblock
    refine ⟨?_, ?_⟩
    · rw [hblock]
      exact portWrite_limb_idle hy.inv.1 (hy.config ▸ hr) (hy.config ▸ hj) _ hyb
    · rw [hblock, happ, limbWrites_succ, Block.applyAll, Block.applyAll, List.foldl_append]
      rfl

/-! #### `RD` of a wide register -/

/-- The number in the first `j` limbs of a register. -/
def Block.lowLimbs (b : Block) (r : WideName) (j : Nat) : Nat :=
  ((List.range j).map fun k => ((b.wide r).getD k 0).toNat * 2 ^ (32 * k)).sum

theorem lowLimbs_succ (b : Block) (r : WideName) (j : Nat) :
    b.lowLimbs r (j + 1) = b.lowLimbs r j + ((b.wide r).getD j 0).toNat * 2 ^ (32 * j) := by
  simp [Block.lowLimbs, List.range_succ]

/-- All the limbs of a register make its number. -/
theorem lowLimbs_all {b : Block} (hs : b.Shape) {r : WideName} (hr : r.Exists b.config) :
    b.lowLimbs r b.config.nl = b.value r := by
  rw [Block.lowLimbs, ← wide_length hs hr, limbsToNat_eq_sum, Block.value]

/-- The first `j` of the events of `RegRead(r)`. -/
def limbReads (r : WideName) (j : Nat) : List PortEvent :=
  (List.range j).map fun k => .read (limbAddr r k)

theorem regRead_eq (c : Config) (r : WideName) : regRead c r = limbReads r c.nl := rfl

theorem limbReads_succ (r : WideName) (j : Nat) :
    limbReads r (j + 1) = limbReads r j ++ [.read (limbAddr r j)] := by
  simp [limbReads, List.range_succ]

/-- `RD r -> t`, begun at `x`, has read `j` limbs and from them the number `acc`. -/
structure ReadLimbs (r : WideName) (t : Option HostVar) (x : Session) (j : Nat) (y : Session)
    (acc : Nat) : Prop where
  inv    : y.machine.Inv
  config : y.machine.block.config = x.machine.block.config
  host   : y.host = x.host.atLimb x.machine.block.config t j acc
  trace  : y.trace.map (·.event) = x.trace.map (·.event) ++ limbReads r j
  idle   : x.machine.block.status.busy = false →
    y.machine.block = x.machine.block ∧ acc = x.machine.block.lowLimbs r j

theorem ReadLimbs.step {p : HostProgram} {x y : Session} {r : WideName} {t : Option HostVar}
    {j acc : Nat} (hl : p[x.host.line]? = some (.rdWide r t))
    (hr : r.Exists x.machine.block.config) (hj : j < x.machine.block.config.nl)
    (hy : ReadLimbs r t x j y acc) (c : Bool) :
    ∃ z, y.step p c = .next z ∧ ∃ acc', ReadLimbs r t x (j + 1) z acc' := by
  have hhost := hy.host
  rw [atLimb_of_lt hj] at hhost
  have hevent : HostLine.event y.machine.block.config y.host (.rdWide r t) =
      some (.read (limbAddr r j)) := by
    simp [HostLine.event, hy.config, hhost, hr]
  obtain ⟨z, hz, hinv, hblock, htrace, hh⟩ :=
    session_step_read hy.inv (by rw [hhost]; exact hl) c hevent
  have hc : z.machine.block.config = x.machine.block.config := by
    rw [hblock, settle_config, hy.config]
  refine ⟨z, hz, acc + (z.machine.block.portRead (limbAddr r j)).toNat * 2 ^ (32 * j), hinv, hc, ?_,
    ?_, fun hb => ?_⟩
  · rw [hh, HostLine.after, hevent, Option.isSome_some, if_pos rfl, hy.config, hy.host,
      limbDone_atLimb hj]
  · rw [htrace, List.map_append, hy.trace, limbReads_succ, List.append_assoc]
    rfl
  · obtain ⟨hsame, hacc⟩ := hy.idle hb
    rw [hsame, settle_idle c hb] at hblock
    rw [hblock, lowLimbs_succ, hacc, portRead_limbAddr (hblock ▸ hinv.1) hr hj]
    exact ⟨rfl, rfl⟩

/-! #### A name that is no register -/

/-- A line that names a table entry past the table makes no event and keeps the host (log entry 13). -/
theorem line_of_no_register {c : Config} {r : WideName} {line : HostLine}
    (hline : line.register = some r) (hr : ¬ r.Exists c) (h : HostState) :
    line.event c h = none ∧ ∀ p w, line.after c p h w = h := by
  have hp : ¬ r.present c = true := mt (present_iff c r).1 hr
  cases line
  case wrWide | rdWide =>
    cases hline
    simp [HostLine.event, HostLine.after, hp]
  all_goals cases hline

/-! #### The statement -/

/-- Settles O56, by an invariant of each transfer: `j` limbs done after `j` edges. A name that is no
register has no event. -/
theorem registerLinesExpand : Obligations.RegisterLinesExpand := by
  intro p x ps hx hpart hacc hps
  have hstart : ∀ t, x.host = x.host.atLimb x.machine.block.config t 0 0 := fun t =>
    (atLimb_zero hx.1 t hpart hacc).symm
  refine ⟨fun r e v hl hr hv hlt => ?_, fun r t hl hr => ?_, fun r c hr hl => ?_⟩
  · obtain ⟨y, hrun, hy⟩ := session_run_of_steps (p := p) (I := WroteLimbs r v x)
      (fun j y c hj _ hy => hy.step hl hr (unsigned_of_eval hv hlt) (hps ▸ hj) c)
      ⟨hx, rfl, hstart none, by simp [limbWrites], fun hb => ⟨hb, rfl⟩⟩
    rw [hps] at hy
    rw [regWrite_eq]
    exact ⟨y, hrun, hy.host.trans (atLimb_end _ _ _ _), hy.trace, fun hb => (hy.idle hb).2⟩
  · obtain ⟨y, hrun, acc, hy⟩ := session_run_of_steps (p := p)
      (I := fun j y => ∃ acc, ReadLimbs r (some t) x j y acc)
      (fun j y c hj _ ⟨acc, hy⟩ => hy.step hl hr (hps ▸ hj) c)
      ⟨0, hx, rfl, hstart (some t), by simp [limbReads], fun hb => ⟨rfl, rfl⟩⟩
    rw [hps] at hy
    have hhost := hy.host.trans (atLimb_end _ _ _ _)
    rw [regRead_eq]
    refine ⟨y, hrun, by simp [hhost], hy.trace, fun hb => ?_⟩
    obtain ⟨hblock, rfl⟩ := hy.idle hb
    refine ⟨hblock, ?_⟩
    rw [hhost, lowLimbs_all hx.2.1 hr]
    exact bind_lookup_self _ _ _
  · obtain ⟨line, hl, hne, hreg⟩ : ∃ line, p[x.host.line]? = some line ∧ line ≠ .reset ∧
        line.register = some r := by
      obtain ⟨e, hl⟩ | ⟨t, hl⟩ := hl
      · exact ⟨_, hl, nofun, rfl⟩
      · exact ⟨_, hl, nofun, rfl⟩
    obtain ⟨hevent, hafter⟩ := line_of_no_register hreg hr x.host
    exact session_step_quiet hx hl c hne hevent (hafter p)

end Sys2Proof.Machine

/-! ### MULMOD and MONTMUL (R90 to R94) -/

namespace Sys2Proof.Machine

/-! #### A command that ends in `RES0` or in an error -/

/-- A register that exists holds a number below `2^W`. -/
theorem value_lt {b : Block} (h : b.WF) {r : WideName} (hr : r.Exists b.config) :
    b.value r < 2 ^ b.config.width :=
  (regReadReturnsTheNumber b r h hr).2

theorem opmVal_lt {b : Block} (h : b.WF) : b.opmVal < 2 ^ b.config.width :=
  value_lt h (r := .opm) trivial

/-- A number that fits in the register is stored as it is. -/
theorem commit_value_res0 {b : Block} {v : Nat} (hv : v < 2 ^ b.config.width) :
    (b.commit { res0 := some v }).value .res0 = v :=
  limbsToNat_natToLimbs hv

/-- The commit of a number for `RES0` changes that register and `STATUS` alone. -/
theorem commit_finishedInRes0 (b : Block) (v : Nat) :
    b.FinishedInRes0 (b.commit { res0 := some v }) := by
  refine ⟨rfl, fun wa hwa => ?_, rfl, rfl⟩
  rw [not_or] at hwa
  obtain ⟨hstatus, hres0⟩ := hwa
  refine portRead_congr wa rfl (fun r j ht => ?_) fun r hr => ?_
  · obtain ⟨ha, -, hj⟩ := limbAddr_of_target ht
    cases r
    case res0 => exact absurd ⟨j, hj, ha⟩ hres0
    all_goals rfl
  · cases r
    case status => exact absurd hr hstatus
    all_goals rfl

/-- Raising an error changes `STATUS` alone. -/
theorem raise_failedWith (b : Block) (k : ErrorKind) : b.FailedWith k.code (b.raise k) :=
  ⟨rfl, keepsOutside_of_status b (b.status.fail k) b.pending, rfl, rfl⟩

/-- A command whose function returns a number for `RES0` alone (R41). -/
theorem exec_finishes_in_res0 {i : Instr} {s : State} {v : Nat}
    (h : resultsOf i s.block = .ok { res0 := some v }) (hv : v < 2 ^ s.block.config.width) :
    ∃ t, exec i s = .next t ∧ s.SameEnvironment t ∧ t.block.value .res0 = v ∧
      s.block.FinishedInRes0 t.block := by
  refine ⟨_, exec_eq i s, ⟨rfl, rfl, rfl⟩, ?_⟩
  rw [State.complete_block, h, complete_ok]
  exact ⟨commit_value_res0 hv, commit_finishedInRes0 s.block v⟩

/-- A command whose function returns an error (R157). -/
theorem exec_fails {i : Instr} {s : State} {k : ErrorKind} (h : resultsOf i s.block = .error k) :
    ∃ t, exec i s = .next t ∧ s.SameEnvironment t ∧ s.block.FailedWith k.code t.block := by
  refine ⟨_, exec_eq i s, ⟨rfl, rfl, rfl⟩, ?_⟩
  rw [State.complete_block, h, complete_error]
  exact raise_failedWith s.block k

/-! #### The two commands -/

/-- Settles O38: past the check of `OPM` the remainder is below `OPM`, so that it fits in `RES0`. -/
theorem mulmodCommand : Obligations.MulmodCommand := by
  refine ⟨by decide, fun s hs => ⟨fun hm => ?_, fun hm => ?_⟩⟩
  · have hlt : modMul s.block.opaVal s.block.opbVal s.block.opmVal < s.block.opmVal :=
      Nat.mod_lt _ (by omega)
    exact exec_finishes_in_res0 (if_neg (by omega)) (hlt.trans (opmVal_lt hs))
  · exact exec_fails (i := .mulmod) (k := .invalidModulus) (if_pos hm)

/-- Settles O39: past the check of `OPM` the Montgomery product is below `OPM`, so that it fits in
`RES0`. -/
theorem montmulCommand : Obligations.MontmulCommand := by
  refine ⟨by decide, fun s hs => ⟨fun hm hodd => ?_, fun hm => ?_⟩⟩
  · obtain ⟨hlt, hval⟩ := montMul_spec s.block.config.width s.block.opaVal s.block.opbVal
      (by omega) hodd
    obtain ⟨t, ht, henv, hres, hfin⟩ := exec_finishes_in_res0 (i := .montmul) (s := s)
      (if_neg (by omega)) (hlt.trans (opmVal_lt hs))
    exact ⟨t, ht, henv, hres ▸ hlt, hres ▸ hval, hfin⟩
  · exact exec_fails (i := .montmul) (k := .invalidModulus) (if_pos hm)

/-! #### The laws of R94 -/

section Laws
variable {m : Nat} (w a b : Nat) (hm : 2 ≤ m) (hodd : m % 2 = 1)
include hm hodd

/-- Times `2^w` the Montgomery product is the product. -/
theorem montMul_mul_modEq : montMul w a b m * 2 ^ w ≡ a * b [MOD m] :=
  (montMul_spec w a b hm hodd).2

/-- The Montgomery product is the only such number below `m`, for `2^w` can be cancelled. -/
theorem montMul_eq_of_modEq {w a b x : Nat} (h : a * b ≡ x * 2 ^ w [MOD m]) :
    montMul w a b m = x % m := by
  have hcop : Nat.gcd m (2 ^ w) = 1 :=
    ((Nat.coprime_two_left.2 (Nat.odd_iff.2 hodd)).pow_left w).symm
  have hx : montMul w a b m ≡ x [MOD m] :=
    ((montMul_mul_modEq w a b hm hodd).trans h).cancel_right_of_coprime hcop
  have hlt := (montMul_spec w a b hm hodd).1
  calc montMul w a b m = montMul w a b m % m := (Nat.mod_eq_of_lt hlt).symm
    _ = x % m := hx

/-- A factor `R2 = 2^(2w) mod m` multiplies by `2^w`: it takes a number into Montgomery form. -/
theorem montMul_r2 : montMul w a (2 ^ (2 * w) % m) m = a * 2 ^ w % m := by
  refine montMul_eq_of_modEq hm hodd ?_
  calc a * (2 ^ (2 * w) % m) ≡ a * 2 ^ (2 * w) [MOD m] := (Nat.mod_modEq _ m).mul_left a
    _ = a * 2 ^ w * 2 ^ w := by ring

/-- The Montgomery product of two Montgomery forms is the form of the product. -/
theorem montMul_forms :
    montMul w (a * 2 ^ w % m) (b * 2 ^ w % m) m = a * b * 2 ^ w % m := by
  refine montMul_eq_of_modEq hm hodd ?_
  calc a * 2 ^ w % m * (b * 2 ^ w % m) ≡ a * 2 ^ w * (b * 2 ^ w) [MOD m] :=
        (Nat.mod_modEq _ m).mul (Nat.mod_modEq _ m)
    _ = a * b * 2 ^ w * 2 ^ w := by ring

end Laws

/-- Settles O40: each law by the value of the Montgomery product, `2^w` cancelled. -/
theorem montgomeryLaws : Obligations.MontgomeryLaws := by
  intro w a b m h3 hodd
  have hm : 2 ≤ m := by omega
  refine ⟨?_, ?_, ?_⟩
  · rw [montMul_r2 w _ hm hodd]
    exact montMul_mul_modEq w a b hm hodd
  · rw [montMul_r2 w a hm hodd, montMul_r2 w b hm hodd, montMul_forms w a b hm hodd, modMul,
      Nat.mod_mul_mod]
  · have h := montMul_mul_modEq w a 1 hm hodd
    rw [mul_one] at h
    exact h

end Sys2Proof.Machine

/-! ### MODEXP (R100, R101) -/

namespace Sys2Proof.Machine

theorem modPow_lt {m : Nat} (hm : 2 ≤ m) (b e : Nat) : modPow b e m < m :=
  modPow_eq hm b e ▸ Nat.mod_lt _ (by omega)

/-- Settles O41: past the check of `OPM` the loop returns the power modulo `OPM`, which is below
`OPM`, so that it fits in `RES0`. -/
theorem modexpCommand : Obligations.ModexpCommand := by
  refine ⟨by decide, fun s hs => ⟨fun hm => ?_, fun hm => ?_⟩⟩
  · have hlt : modPow s.block.opaVal s.block.opbVal s.block.opmVal < 2 ^ s.block.config.width :=
      (modPow_lt hm _ _).trans (opmVal_lt hs)
    rw [← modPow_eq hm]
    exact exec_finishes_in_res0 (if_neg (by omega)) hlt
  · exact exec_fails (i := .modexp) (k := .invalidModulus) (if_pos hm)

end Sys2Proof.Machine

/-! ### GCD, XGCD and MODINV (R110 to R119) -/

namespace Sys2Proof.Machine

/-! #### The operands fit in a register -/

theorem opaVal_lt {b : Block} (h : b.WF) : b.opaVal < 2 ^ b.config.width :=
  value_lt h (r := .opa) trivial

theorem opbVal_lt {b : Block} (h : b.WF) : b.opbVal < 2 ^ b.config.width :=
  value_lt h (r := .opb) trivial

/-- The bound of R119 fits in a register. -/
theorem max_operands_lt {b : Block} (h : b.WF) :
    max (max b.opaVal b.opbVal) 1 < 2 ^ b.config.width := by
  have hab : max b.opaVal b.opbVal < 2 ^ b.config.width := max_lt (opaVal_lt h) (opbVal_lt h)
  obtain ⟨⟨⟨hnl, -⟩, -⟩, -⟩ := h
  exact max_lt hab (Nat.one_lt_two_pow (by simp only [Config.width]; omega))

/-- A gcd is at most one of its operands, or 0 where both are. -/
theorem gcd_le_max (a b : Nat) : Nat.gcd a b ≤ max a b := by
  rcases Nat.eq_zero_or_pos a with rfl | ha
  · simp
  · exact (Nat.gcd_le_left b ha).trans (le_max_left a b)

theorem gcd_operands_lt {b : Block} (h : b.WF) :
    Nat.gcd b.opaVal b.opbVal < 2 ^ b.config.width :=
  (gcd_le_max _ _).trans_lt (max_lt (opaVal_lt h) (opbVal_lt h))

/-! #### GCD -/

/-- Settles O42: the loop returns the gcd, which fits in `RES0`. -/
theorem gcdCommand : Obligations.GcdCommand := by
  refine ⟨by decide, fun s hs => ?_⟩
  rw [← gcd_eq]
  exact exec_finishes_in_res0 rfl (gcd_eq _ _ ▸ gcd_operands_lt hs)

/-! #### XGCD -/

/-- Settles O44, from the loop invariant that weighs the coefficients by the remainders. -/
theorem coefficientsStayBounded : Obligations.CoefficientsStayBounded := by
  intro a b k
  obtain ⟨⟨hox, hx⟩, hoy, hy⟩ := extGcdLoop_bounded a b k
  exact ⟨hox, hx, hoy, hy⟩

/-- A number is its sign and its magnitude (R24). -/
theorem signedValue_natAbs (z : Int) : signedValue (decide (z < 0)) z.natAbs = z := by
  by_cases hz : z < 0
  · simp only [signedValue, hz, decide_true, if_true]; omega
  · simp only [signedValue, hz, decide_false, Bool.false_eq_true, if_false]; omega

/-- What XGCD writes of the triple that `ExtGcd` returns (R114-code). -/
def Bezout.toResults (e : Bezout) : Results :=
  { res0 := some e.g
    res1 := some e.x.natAbs, xneg := some (decide (e.x < 0))
    res2 := some e.y.natAbs, yneg := some (decide (e.y < 0)) }

/-- Any commit changes the result registers and `STATUS` alone. -/
theorem commit_keepsOutside_results (b : Block) (r : Results) :
    b.KeepsOutside
      (fun wa => atStatus wa ∨ inRegister b.config .res0 wa ∨ inRegister b.config .res1 wa ∨
        inRegister b.config .res2 wa) (b.commit r) := by
  intro wa hwa
  simp only [not_or] at hwa
  obtain ⟨hstatus, hres0, hres1, hres2⟩ := hwa
  refine portRead_congr wa rfl (fun r j ht => ?_) fun r hr => ?_
  · obtain ⟨ha, -, hj⟩ := limbAddr_of_target ht
    cases r
    case res0 => exact absurd ⟨j, hj, ha⟩ hres0
    case res1 => exact absurd ⟨j, hj, ha⟩ hres1
    case res2 => exact absurd ⟨j, hj, ha⟩ hres2
    all_goals rfl
  · cases r
    case status => exact absurd hr hstatus
    all_goals rfl

section Bezout
variable {b : Block} {e : Bezout}

theorem commit_bezout_res1 (h : e.x.natAbs < 2 ^ b.config.width) :
    (b.commit e.toResults).value .res1 = e.x.natAbs :=
  limbsToNat_natToLimbs h

theorem commit_bezout_res2 (h : e.y.natAbs < 2 ^ b.config.width) :
    (b.commit e.toResults).value .res2 = e.y.natAbs :=
  limbsToNat_natToLimbs h

theorem commit_bezout_coefX (h : e.x.natAbs < 2 ^ b.config.width) :
    (b.commit e.toResults).coefX = e.x :=
  (congrArg (signedValue _) (commit_bezout_res1 h)).trans (signedValue_natAbs e.x)

theorem commit_bezout_coefY (h : e.y.natAbs < 2 ^ b.config.width) :
    (b.commit e.toResults).coefY = e.y :=
  (congrArg (signedValue _) (commit_bezout_res2 h)).trans (signedValue_natAbs e.y)

end Bezout

/-- Settles O43: the coefficients are bounded by the operands, so that the guard of R118 never
fires, and the committed signs and magnitudes are those of the pair that `ExtGcd` returns. -/
theorem xgcdCommand : Obligations.XgcdCommand := by
  refine ⟨by decide, fun s hs => ⟨_, exec_eq .xgcd s, ⟨rfl, rfl, rfl⟩, ?_⟩⟩
  have hok : resultsOf .xgcd s.block = .ok (extGcd s.block.opaVal s.block.opbVal).toResults :=
    xgcdResults_ok hs
  rw [State.complete_block, hok, complete_ok]
  obtain ⟨hbezout, hgcd⟩ := extGcd_spec s.block.opaVal s.block.opbVal
  obtain ⟨hx, hy⟩ := extGcd_bounded s.block.opaVal s.block.opbVal
  have hmax := max_operands_lt hs
  have hg := gcd_operands_lt hs
  generalize extGcd s.block.opaVal s.block.opbVal = e at *
  have hres0 : (s.block.commit e.toResults).value .res0 = e.g :=
    limbsToNat_natToLimbs (hgcd ▸ hg)
  have hres1 := commit_bezout_res1 (hx.trans_lt hmax)
  have hres2 := commit_bezout_res2 (hy.trans_lt hmax)
  have hcoefX := commit_bezout_coefX (hx.trans_lt hmax)
  have hcoefY := commit_bezout_coefY (hy.trans_lt hmax)
  rw [hres0, hres1, hres2, hcoefX, hcoefY]
  refine ⟨hgcd, hbezout, rfl, rfl, hx, hy, fun hneg => ?_, fun hneg => ?_, rfl,
    commit_keepsOutside_results s.block _, rfl, rfl⟩
  · have : e.x < 0 := of_decide_eq_true hneg
    omega
  · have : e.y < 0 := of_decide_eq_true hneg
    omega

/-! #### Which Bézout pair -/

/-- The coefficients of the two operands exchanged. -/
def ExtState.swap (t : ExtState) : ExtState :=
  { t with oldX := t.oldY, x := t.y, oldY := t.oldX, y := t.x }

/-- The loop's quotients do not look at the coefficients. -/
theorem extGcdLoop_swap (fuel : Nat) (t : ExtState) :
    extGcdLoop fuel t.swap = (extGcdLoop fuel t).swap := by
  induction fuel generalizing t with
  | zero => rfl
  | succ fuel ih =>
    by_cases hr : t.r = 0
    · simp only [extGcdLoop, ExtState.swap, hr, if_true]
    · calc extGcdLoop (fuel + 1) t.swap = extGcdLoop fuel t.iterate.swap := if_neg hr
        _ = (extGcdLoop fuel t.iterate).swap := ih t.iterate
        _ = (extGcdLoop (fuel + 1) t).swap := by rw [extGcdLoop, if_neg hr]

/-- Where the first operand is the smaller one, the first quotient is 0 and the first iteration only
exchanges the operands. -/
theorem init_iterate_of_lt {a b : Nat} (h : a < b) :
    (ExtState.init a b).iterate = (ExtState.init b a).swap := by
  simp [ExtState.iterate, ExtState.init, ExtState.swap, Nat.div_eq_of_lt h]

theorem extGcdLoop_of_lt {a b : Nat} (h : a < b) :
    extGcdLoop b (ExtState.init a b) = (extGcdLoop a (ExtState.init b a)).swap := by
  obtain ⟨n, rfl⟩ : ∃ n, b = n + 1 := ⟨b - 1, by omega⟩
  calc extGcdLoop (n + 1) (ExtState.init a (n + 1))
      = extGcdLoop n (ExtState.init a (n + 1)).iterate := if_neg (Nat.succ_ne_zero n)
    _ = (extGcdLoop n (ExtState.init (n + 1) a)).swap := by
        rw [init_iterate_of_lt h, extGcdLoop_swap]
    _ = (extGcdLoop a (ExtState.init (n + 1) a)).swap := by
        rw [extGcdLoop_fuel n a _ (Nat.le_of_lt_succ h) le_rfl]

theorem extGcd_of_lt {a b : Nat} (h : a < b) :
    extGcd a b = ⟨(extGcd b a).g, (extGcd b a).y, (extGcd b a).x⟩ := by
  simp only [extGcd, extGcdLoop_of_lt h, ExtState.swap]

/-- R113 (d). -/
theorem extGcd_swap {a b : Nat} (h : a ≠ b) :
    extGcd b a = ⟨(extGcd a b).g, (extGcd a b).y, (extGcd a b).x⟩ := by
  rcases Nat.lt_or_gt_of_ne h with hlt | hgt
  · rw [extGcd_of_lt hlt]
  · exact extGcd_of_lt hgt

/-- A second operand that divides the first is the gcd, after one iteration. -/
theorem extGcd_of_dvd {a b : Nat} (hb : 0 < b) (h : b ∣ a) : extGcd a b = ⟨b, 0, 1⟩ := by
  have hr : (ExtState.init a b).iterate.r = 0 :=
    (iterate_r _).trans (Nat.mod_eq_zero_of_dvd h)
  obtain ⟨n, rfl⟩ : ∃ n, b = n + 1 := ⟨b - 1, by omega⟩
  have hloop : extGcdLoop (n + 1) (ExtState.init a (n + 1)) = (ExtState.init a (n + 1)).iterate :=
    calc _ = extGcdLoop n (ExtState.init a (n + 1)).iterate := if_neg (Nat.succ_ne_zero n)
      _ = extGcdLoop 0 (ExtState.init a (n + 1)).iterate :=
        extGcdLoop_fuel n 0 _ (hr ▸ Nat.zero_le n) hr.le
  rw [extGcd, hloop]
  rfl

/-- Settles O45: no iteration for `OPB = 0`, one where `OPB` divides `OPA`; the case `OPA = 1` is
the case `OPB = 1` with the operands swapped. -/
theorem bezoutPairAtTheEdges : Obligations.BezoutPairAtTheEdges := by
  refine ⟨fun a => rfl, fun b hb => extGcd_of_dvd hb (dvd_zero b),
    fun a ha => extGcd_of_dvd ha dvd_rfl, fun b hb => ?_,
    fun a _ => extGcd_of_dvd one_pos (one_dvd a), fun a b hab => extGcd_swap hab⟩
  rw [extGcd_of_lt (show 1 < b by omega), extGcd_of_dvd one_pos (one_dvd b)]

/-! #### MODINV -/

/-- The first Bézout coefficient, reduced, is the inverse of a coprime first operand (R115). -/
theorem extGcd_inverse {a m : Nat} (hm : 1 ≤ m) (hcop : Nat.gcd a m = 1) :
    ((extGcd a m).x % (m : Int)).toNat < m ∧
    a * ((extGcd a m).x % (m : Int)).toNat % m = 1 % m := by
  have hm0 : (0 : Int) < m := by omega
  obtain ⟨hbezout, hg⟩ := extGcd_spec a m
  rw [hg, hcop] at hbezout
  have hcast : (((extGcd a m).x % (m : Int)).toNat : Int) = (extGcd a m).x % m :=
    Int.toNat_of_nonneg (Int.emod_nonneg _ hm0.ne')
  refine ⟨?_, Int.natCast_modEq_iff.1 ?_⟩
  · have := Int.emod_lt_of_pos (extGcd a m).x hm0
    omega
  · calc ((a * ((extGcd a m).x % (m : Int)).toNat : Nat) : Int)
        = a * ((extGcd a m).x % m) := by rw [Nat.cast_mul, hcast]
      _ ≡ a * (extGcd a m).x [ZMOD m] := (Int.mod_modEq _ _).mul_left _
      _ ≡ a * (extGcd a m).x + m * (extGcd a m).y [ZMOD m] := by simp [Int.ModEq]
      _ = (1 : Nat) := hbezout

/-- Settles O46: `OPB = 0` fails first; then the gcd decides, and a coprime `OPA` has its reduced
first Bézout coefficient as inverse, which is below `OPB` and so fits in `RES0`. -/
theorem modinvCommand : Obligations.ModinvCommand := by
  refine ⟨by decide, fun s hs => ⟨fun hb hcop => ?_, fun hb => ?_, fun hb hcop => ?_⟩⟩
  · obtain ⟨hlt, hinv⟩ := extGcd_inverse hb hcop
    have hg : (extGcd s.block.opaVal s.block.opbVal).g = 1 := (extGcd_spec _ _).2.trans hcop
    obtain ⟨t, ht, henv, hres, hfin⟩ := exec_finishes_in_res0 (i := .modinv) (s := s)
      ((if_neg (by omega)).trans (if_neg (not_not.2 hg))) (hlt.trans (opbVal_lt hs))
    exact ⟨t, ht, henv, hres ▸ hlt, hres ▸ hinv, hfin⟩
  · exact exec_fails (i := .modinv) (k := .invalidModulus) (if_pos hb)
  · have hg : (extGcd s.block.opaVal s.block.opbVal).g ≠ 1 :=
      fun h => hcop ((extGcd_spec _ _).2.symm.trans h)
    exact exec_fails (i := .modinv) (k := .noModularInverse)
      ((if_neg (by omega)).trans (if_pos hg))

end Sys2Proof.Machine

/-! ### MRTEST (R130 to R137) -/

namespace Sys2Proof.Machine

/-! #### The trivial cases (R131) -/

theorem millerRabin_of_lt_two {n : Nat} (h : n < 2) (bases : List Nat) :
    millerRabin n bases = false := if_pos h

theorem millerRabin_two_or_three {n : Nat} (h : n = 2 ∨ n = 3) (bases : List Nat) :
    millerRabin n bases = true := (if_neg (by omega)).trans (if_pos h)

theorem millerRabin_even {n : Nat} (h4 : 4 ≤ n) (heven : n % 2 = 0) (bases : List Nat) :
    millerRabin n bases = false :=
  (if_neg (by omega)).trans ((if_neg (by omega)).trans (if_pos heven))

/-- The trivial cases and the odd candidates from 5 on. -/
theorem candidate_cases (n : Nat) :
    n < 2 ∨ (n = 2 ∨ n = 3) ∨ (4 ≤ n ∧ n % 2 = 0) ∨ (5 ≤ n ∧ n % 2 = 1) := by omega

/-- The bases count as a set (R136 (e), (f)). -/
theorem millerRabin_congr (n : Nat) {l l' : List Nat} (h : ∀ a, a ∈ l ↔ a ∈ l') :
    millerRabin n l = millerRabin n l' := by
  obtain h2 | h23 | ⟨h4, heven⟩ | ⟨h5, hodd⟩ := candidate_cases n
  · rw [millerRabin_of_lt_two h2, millerRabin_of_lt_two h2]
  · rw [millerRabin_two_or_three h23, millerRabin_two_or_three h23]
  · rw [millerRabin_even h4 heven, millerRabin_even h4 heven]
  · rw [Bool.eq_iff_iff, millerRabin_odd h5 hodd, millerRabin_odd h5 hodd]
    exact forall_congr' fun a => by rw [h a]

/-! #### The decomposition is the only one (R132) -/

/-- A power of two divides the power of two in front of an odd number. -/
theorem exponent_le_of_two_pow_mul_eq {e f c d : Nat} (hc : c % 2 = 1)
    (h : 2 ^ e * d = 2 ^ f * c) : e ≤ f := by
  have hcop : Nat.Coprime (2 ^ e) c := (Nat.coprime_two_left.2 (Nat.odd_iff.2 hc)).pow_left e
  exact (Nat.pow_dvd_pow_iff_le_right one_lt_two).1 (hcop.dvd_of_dvd_mul_right (Dvd.intro d h))

theorem decompose_eq {m e d : Nat} (hm : 0 < m) (hd : d % 2 = 1) (h : m = 2 ^ e * d) :
    decompose m = (d, e) := by
  obtain ⟨hspec, hodd, -⟩ := decompose_spec hm
  generalize decompose m = p at hspec hodd
  obtain ⟨c, f⟩ := p
  have hcd : 2 ^ f * c = 2 ^ e * d := hspec.trans h
  obtain rfl : f = e := le_antisymm (exponent_le_of_two_pow_mul_eq hd hcd)
    (exponent_le_of_two_pow_mul_eq hodd hcd.symm)
  rw [Nat.eq_of_mul_eq_mul_left (Nat.two_pow_pos f) hcd]

/-- An odd candidate has the decomposition that the clauses on it speak of. -/
theorem exists_decomposition {n : Nat} (h5 : 5 ≤ n) (hodd : n % 2 = 1) :
    ∃ e d, d % 2 = 1 ∧ n - 1 = 2 ^ e * d ∧ 1 ≤ e := by
  obtain ⟨hspec, hd, he⟩ := decompose_spec (m := n - 1) (by omega)
  exact ⟨_, _, hd, hspec.symm, he (by omega)⟩

/-! #### The verdict by the bases' sequences (R133) -/

/-- The base `a` passes for `n` with `n - 1 = 2^e * d`: its sequence `a^d, a^(2d), …` modulo `n`
starts with 1 or meets `n - 1`. -/
def BaseAcquits (n e d a : Nat) : Prop :=
  a ^ d % n = 1 ∨ ∃ j, j < e ∧ a ^ (d * 2 ^ j) % n = n - 1

theorem millerRabin_iff {n e d : Nat} (h5 : 5 ≤ n) (hd : d % 2 = 1) (h : n - 1 = 2 ^ e * d)
    (he : 1 ≤ e) (bases : List Nat) :
    millerRabin n bases = true ↔ ∀ a ∈ bases, a < n → BaseAcquits n e d a := by
  have hodd : n % 2 = 1 := by
    have h2 : 2 ∣ n - 1 := h ▸ Dvd.dvd.mul_right (dvd_pow_self 2 (by omega)) d
    omega
  rw [millerRabin_odd h5 hodd, decompose_eq (by omega) hd h]
  simp only [basePasses_iff (show 2 ≤ n by omega) d e _ he, BaseAcquits]

/-- The active bases are the numbers in the first `NBASES` registers of the table (R23). -/
theorem mem_activeBases {b : Block} (h : b.WF) (a : Nat) :
    a ∈ b.activeBases ↔ ∃ k, k < b.nbases.toNat ∧ b.value (.base k) = a := by
  obtain ⟨-, ⟨-, -, ⟨hlen, -⟩, hn⟩, -⟩ := h
  have hle : b.nbases.toNat ≤ b.base.length := hlen ▸ hn
  have hvalue : ∀ k (hk : k < b.base.length), b.value (.base k) = limbsToNat b.base[k] :=
    fun k hk => congrArg limbsToNat (List.getD_eq_getElem _ _ hk)
  simp only [Block.activeBases, List.mem_map, List.mem_take_iff_getElem, min_eq_left hle]
  constructor
  · rintro ⟨-, ⟨k, hk, rfl⟩, rfl⟩
    exact ⟨k, hk, hvalue k (hk.trans_le hle)⟩
  · rintro ⟨k, hk, rfl⟩
    exact ⟨_, ⟨k, hk, rfl⟩, (hvalue k (hk.trans_le hle)).symm⟩

theorem millerRabin_activeBases_iff {b : Block} {e d : Nat} (hb : b.WF) (h5 : 5 ≤ b.opaVal)
    (hd : d % 2 = 1) (h : b.opaVal - 1 = 2 ^ e * d) (he : 1 ≤ e) :
    millerRabin b.opaVal b.activeBases = true ↔
      ∀ k, k < b.nbases.toNat → b.value (.base k) < b.opaVal →
        BaseAcquits b.opaVal e d (b.value (.base k)) := by
  simp only [millerRabin_iff h5 hd h he, mem_activeBases hb, forall_exists_index, and_imp,
    forall_apply_eq_imp_iff₂]

/-- MRTEST's verdict is that of the function (R134). -/
theorem exec_mrtest_prime {s t : State} (h : exec .mrtest s = .next t) :
    t.block.status.prime = millerRabin s.block.opaVal s.block.activeBases := by
  rw [exec_eq] at h
  cases h
  exact complete_mrtest_prime s.block

/-- Settles O47: the verdict case by case from the function, and the commit of a flag. -/
theorem mrtestCommand : Obligations.MrtestCommand := by
  refine ⟨by decide, fun s hs => ⟨_, exec_eq .mrtest s, ⟨rfl, rfl, rfl⟩, ?_⟩⟩
  exact ⟨fun hlt => millerRabin_of_lt_two hlt _, fun h23 => millerRabin_two_or_three h23 _,
    fun h4 heven => millerRabin_even h4 heven _,
    fun e d h5 hd h he => millerRabin_activeBases_iff hs h5 hd h he,
    rfl, keepsOutside_of_status _ _ _, rfl, rfl⟩

/-- Settles O50: the verdict is a function of the candidate and of the bases as a set. -/
theorem mrtestIgnoresBaseOrder : Obligations.MrtestIgnoresBaseOrder := by
  intro s s' t t' hopa hbases ht ht'
  rw [exec_mrtest_prime ht, exec_mrtest_prime ht', hopa]
  exact millerRabin_congr _ hbases

/-! #### A base's sequence in the ring of integers modulo `n` -/

theorem mod_eq_iff_natCast_eq {n r : Nat} (hr : r < n) (x : Nat) :
    x % n = r ↔ (x : ZMod n) = r := by
  rw [ZMod.natCast_eq_natCast_iff', Nat.mod_eq_of_lt hr]

theorem natCast_pred {n : Nat} (hn : 1 ≤ n) : ((n - 1 : Nat) : ZMod n) = -1 := by
  rw [Nat.cast_pred hn, ZMod.natCast_self, zero_sub]

theorem baseAcquits_iff {n : Nat} (hn : 2 ≤ n) (e d a : Nat) :
    BaseAcquits n e d a ↔
      (a : ZMod n) ^ d = 1 ∨ ∃ j, j < e ∧ (a : ZMod n) ^ (d * 2 ^ j) = -1 := by
  simp only [BaseAcquits, mod_eq_iff_natCast_eq (show 1 < n by omega),
    mod_eq_iff_natCast_eq (show n - 1 < n by omega), natCast_pred (show 1 ≤ n by omega),
    Nat.cast_pow, Nat.cast_one]

section Corners
variable {n e d : Nat} (hn : 3 ≤ n)
include hn

/-- R136 (b). -/
theorem baseAcquits_one : BaseAcquits n e d 1 :=
  .inl (by rw [one_pow, Nat.mod_eq_of_lt (by omega)])

/-- R136 (c): an odd power of `-1` is `-1`. -/
theorem baseAcquits_pred (hd : d % 2 = 1) (he : 1 ≤ e) : BaseAcquits n e d (n - 1) := by
  rw [baseAcquits_iff (by omega), natCast_pred (by omega)]
  exact .inr ⟨0, he, by rw [pow_zero, mul_one, (Nat.odd_iff.2 hd).neg_one_pow]⟩

/-- R136 (d): every power in the sequence is 0. -/
theorem not_baseAcquits_zero (hd : d % 2 = 1) : ¬ BaseAcquits n e d 0 := by
  rintro (h | ⟨j, -, h⟩)
  · rw [zero_pow (by omega), Nat.zero_mod] at h
    omega
  · rw [zero_pow (Nat.mul_ne_zero (by omega) (Nat.two_pow_pos j).ne'), Nat.zero_mod] at h
    omega

end Corners

/-- Settles O49: the bases that are tested in the first clause are 1 and `n - 1`, which pass; a base
0 is tested and fails. -/
theorem mrtestTableCorners : Obligations.MrtestTableCorners := by
  intro s t hs h5 hodd ht
  obtain ⟨e, d, hd, h, he⟩ := exists_decomposition h5 hodd
  have hn : 3 ≤ s.block.opaVal := by omega
  rw [exec_mrtest_prime ht]
  refine ⟨fun hbases => ?_, fun ⟨k, hk, hzero⟩ => ?_⟩
  · refine (millerRabin_activeBases_iff hs h5 hd h he).2 fun k hk hlt => ?_
    obtain h1 | hpred := hbases k hk
    · exact h1 ▸ baseAcquits_one hn
    · have heq : s.block.value (.base k) = s.block.opaVal - 1 := by omega
      exact heq ▸ baseAcquits_pred hn hd he
  · refine Bool.eq_false_iff.2 fun hprime => not_baseAcquits_zero (e := e) hn hd ?_
    have hk0 := (millerRabin_activeBases_iff hs h5 hd h he).1 hprime k hk (by omega)
    rwa [hzero] at hk0

/-! #### A prime passes with every base (R137) -/

/-- Going back from a power that is 1, by square roots: without zero divisors each is 1 or `-1`. -/
theorem pow_eq_one_or_exists_neg_one {R : Type} [CommRing R] [NoZeroDivisors R] {x : R} {d e : Nat}
    (h : x ^ (d * 2 ^ e) = 1) : x ^ d = 1 ∨ ∃ j, j < e ∧ x ^ (d * 2 ^ j) = -1 := by
  induction e with
  | zero => exact .inl (by rwa [pow_zero, mul_one] at h)
  | succ e ih =>
    rw [pow_succ, ← mul_assoc, pow_mul, sq] at h
    obtain hone | hneg := mul_self_eq_one_iff.1 h
    · exact (ih hone).imp_right fun ⟨j, hj, hx⟩ => ⟨j, hj.trans (Nat.lt_succ_self e), hx⟩
    · exact .inr ⟨e, Nat.lt_succ_self e, hneg⟩

/-- By Fermat's little theorem the sequence of a base prime to `p` ends in 1. -/
theorem baseAcquits_of_prime {p e d a : Nat} (hp : p.Prime) (h : p - 1 = 2 ^ e * d) (ha : 1 ≤ a)
    (hlt : a < p) : BaseAcquits p e d a := by
  have : Fact p.Prime := ⟨hp⟩
  have hne : (a : ZMod p) ≠ 0 := fun h0 =>
    Nat.not_dvd_of_pos_of_lt ha hlt ((ZMod.natCast_eq_zero_iff a p).1 h0)
  rw [baseAcquits_iff hp.two_le]
  apply pow_eq_one_or_exists_neg_one
  rw [mul_comm, ← h]
  exact ZMod.pow_card_sub_one_eq_one hne

/-- Settles O48: a prime from 5 on is odd, and each of its active bases is skipped or passes. -/
theorem mrtestNeverCondemnsAPrime : Obligations.MrtestNeverCondemnsAPrime := by
  intro s t hs hp hbases ht
  rw [exec_mrtest_prime ht]
  have h2 := hp.two_le
  obtain hlt | h23 | ⟨h4, heven⟩ | ⟨h5, hodd⟩ := candidate_cases s.block.opaVal
  · omega
  · exact millerRabin_two_or_three h23 _
  · have := hp.eq_two_or_odd
    omega
  · obtain ⟨e, d, hd, h, he⟩ := exists_decomposition h5 hodd
    exact (millerRabin_activeBases_iff hs h5 hd h he).2 fun k hk hlt =>
      baseAcquits_of_prime hp h (hbases k hk) hlt

end Sys2Proof.Machine

/-! ### Errors and the interrupt line (R155 to R160) -/

namespace Sys2Proof.Machine

/-! #### The `STATUS` word of a report -/

/-- `ERRCODE` alone in a word: bits 15:8 (R33). -/
theorem codeField_getElem (code : BitVec 8) (i : Nat) (hi : i < 32) :
    (0#16 ++ code ++ 0#8 : Word)[i] = (!decide (i < 8) && code.getLsbD (i - 8)) := by
  have hsplit : (0#16 ++ code ++ 0#8 : Word)[i] =
      if i < 8 then (0#8).getLsbD i else (0#16 ++ code).getLsbD (i - 8) := BitVec.getLsbD_append
  rw [hsplit, BitVec.getLsbD_append]
  by_cases h : i < 8
  · simp [h]
  · simpa [h] using BitVec.lt_of_getLsbD

/-- Every error is reported in one form: `BUSY` and `DONE` read 0, `ERR` 1, `ERRCODE` the code, and
the other four flags (mask `0x78`) as before. -/
theorem error_toWord (t : Status) (code : BitVec 8) :
    ({ t with busy := false, done := false, err := true, errcode := code } : Status).toWord =
      (t.toWord &&& 0x78) ||| 0x4 ||| (0#16 ++ code ++ 0#8) := by
  refine status_word_ext (fun i hi => ?_) fun i hi => ?_
  · interval_cases i <;> simp [codeField_getElem]
  · interval_cases i <;> simp [codeField_getElem]

theorem illegalCommand_toWord {t : Status} (h : t.busy = false) :
    t.illegalCommand.toWord = (t.toWord &&& 0x78) ||| 0x504 := by
  rw [Status.illegalCommand, h, error_toWord, BitVec.or_assoc]
  rfl

theorem fail_toWord {t : Status} (h : t.done = false) (k : ErrorKind) :
    (t.fail k).toWord = (t.toWord &&& 0x78) ||| 0x4 ||| (0#16 ++ k.code ++ 0#8) := by
  rw [Status.fail, h, error_toWord]

theorem acknowledge_toWord (t : Status) :
    (t.writeOneToClear 0x4).toWord = t.toWord &&& 0x7B := by
  refine status_word_ext (fun i hi => ?_) fun i hi => ?_
  · interval_cases i <;> simp
  · interval_cases i <;> simp

/-! #### The interrupt line -/

/-- The enables as the host reads them (R32). -/
theorem ctrl_word_enables (b : Block) :
    (b.portRead (ctrlAddr .ctrl)).getLsbD 0 = b.ctrl.ieDone ∧
    (b.portRead (ctrlAddr .ctrl)).getLsbD 1 = b.ctrl.ieErr := by
  rw [portRead_ctrlAddr]
  exact ⟨ctrl_toWord_getLsbD b.ctrl 0, ctrl_toWord_getLsbD b.ctrl 1⟩

theorem irq_iff (b : Block) : b.irq = true ↔
    (b.status.done = true ∧ b.ctrl.ieDone = true) ∨ (b.status.err = true ∧ b.ctrl.ieErr = true) := by
  simp [Block.irq]

theorem irq_of_no_flag {b : Block} (hd : b.status.done = false) (he : b.status.err = false) :
    b.irq = false := by
  simp [Block.irq, hd, he]

theorem irq_of_err {b : Block} (hd : b.status.done = false) (he : b.status.err = true) :
    b.irq = b.ctrl.ieErr := by
  simp [Block.irq, hd, he]

/-! #### The statements -/

/-- Settles O4: a word other than the seven decodes to no command, so the write is a rejection, which
leaves `BUSY` clear; and with `BUSY` clear a step takes no `Complete`. -/
theorem illegalCommandReport : Obligations.IllegalCommandReport := by
  intro b v hl hv
  refine ⟨fun h => ?_, fun h => portWrite_discarded h _ v⟩
  obtain ⟨x, hx⟩ : ∃ x, decode v = .error x := by
    rcases hd : decode v with x | i
    · exact ⟨x, rfl⟩
    · exact absurd (eq_encode_of_decode hd) (hv i)
  rw [portWrite_illegal h hx]
  refine ⟨?_, keepsOutside_of_status b _ b.pending, ⟨rfl, rfl⟩, fun s hs hr => ?_⟩
  · rw [statusWord_eq, statusWord_eq]
    exact illegalCommand_toWord h
  · exact step_of_not_complete (by rw [hs]; exact hl) hr (.inr (by rw [hs]; exact h))

/-- Settles O25: the words show the flags and enables of the formula; the invariant excludes the two
flags together; the clear and the accept leave neither; and a discarded write touches neither. -/
theorem irqIsALevel : Obligations.IrqIsALevel := by
  intro b hb
  obtain ⟨-, -, ⟨-, hdone, -⟩, -⟩ := hb
  obtain ⟨⟨-, hd, he, -⟩, -⟩ := statusLayout b
  obtain ⟨hid, hie⟩ := ctrl_word_enables b
  rw [hd, he, hid, hie]
  refine ⟨irq_iff b, fun ⟨h1, h2⟩ => ?_, fun h => ?_, fun h i => ?_, fun h wa v => ?_⟩
  · rw [hdone h1] at h2
    cases h2
  · rw [portWrite_ctrlAddr h]
    exact irq_of_no_flag (Bool.and_false _) (Bool.and_false _)
  · rw [portWrite_command h]
    exact irq_of_no_flag rfl rfl
  · rw [portWrite_busy h]
    rfl

/-- Settles O26: the write is `acknowledge` by definition, which writes `STATUS` alone; and a command
word is accepted whatever `ERR` is. -/
theorem errorIsAcknowledged : Obligations.ErrorIsAcknowledged := by
  intro b i h _
  rw [portWrite_command h]
  refine ⟨portWrite_ctrlAddr h .status 0x4, ?_, keepsOutside_of_status b _ b.pending, ⟨rfl, rfl⟩,
    rfl, rfl, rfl, rfl⟩
  rw [statusWord_eq, statusWord_eq]
  exact acknowledge_toWord b.status

/-- Settles O37: a command that succeeds leaves `ERR` clear, so this one raised an error, one of those
R153 lists for it; and raising writes `STATUS` alone. -/
theorem errorsArePrecise : Obligations.ErrorsArePrecise := by
  intro i s t hs hb ht herr
  obtain ⟨hd, he, -⟩ := flags_in_flight hs hb
  obtain rfl := Host.Outcome.next.inj ((exec_eq i s).symm.trans ht)
  rw [State.complete_block] at herr ⊢
  rcases hr : resultsOf i s.block with k | r
  · rw [complete_error]
    obtain ⟨-, hkeeps, hhidden⟩ := raise_failedWith s.block k
    refine ⟨k.code, ?_, ?_, hkeeps, hhidden,
      ⟨rfl, rfl, rfl, rfl, rfl, rfl⟩, ⟨rfl, rfl, rfl, rfl, rfl, rfl⟩, irq_of_err hd rfl⟩
    · obtain ⟨rfl, hi⟩ | ⟨rfl, hi⟩ | ⟨rfl, hi⟩ := resultsOf_error hr
      · exact .inl ⟨rfl, hi⟩
      · exact .inr (.inl ⟨rfl, hi⟩)
      · exact .inr (.inr ⟨rfl, hi⟩)
    · rw [statusWord_eq, statusWord_eq]
      exact fail_toWord hd k
  · rw [hr, complete_ok, commit_err, he] at herr
    cases herr

end Sys2Proof.Machine

/-! ### Reset at any edge, and the placement of `Complete` (R180, R192) -/

namespace Sys2Proof.Machine

/-! #### Reset (R180, R181) -/

/-- An edge with `rst = 1` is reset and nothing else: no `Complete`, no port event. -/
theorem step_of_reset {s : State} (hl : s.block.config.Legal) (hr : s.nextEdge.pins.rst = true) :
    step s = .next s.advance.applyReset :=
  (step_legal hl).trans (if_pos hr)

theorem run_config {k : Nat} {s t : State} (h : Host.Core.run core k s = .next t) :
    t.block.config = s.block.config := by
  induction k generalizing s with
  | zero => cases h; rfl
  | succ k ih =>
    obtain ⟨u, hu, hrun⟩ := run_succ_cases h
    exact (ih hrun).trans (step_config hu)

/-- Settles O7: a run keeps the parameters, so the step at its end is not refused, and with
`rst = 1` it is a reset to those same parameters. -/
theorem resetWinsAtAnyEdge : Obligations.ResetWinsAtAnyEdge := by
  intro s t k hl hrun hr
  have hc : t.block.config = s.block.config := run_config hrun
  exact ⟨_, step_of_reset (hc ▸ hl) hr, congrArg Block.resetFor hc, rfl, rfl, rfl, rfl⟩

/-! #### Waiting for a command without writing (R64, R184, R192) -/

/-- `Complete` can be taken once: an earlier chance to take it changes nothing of what a later one
leaves. -/
theorem settle_settle_true (c : Bool) (b : Block) : (b.settle c).settle true = b.settle true := by
  cases c with
  | false => rw [settle_false]
  | true =>
    cases hb : b.status.busy with
    | false => rw [settle_idle true hb, settle_idle true hb]
    | true =>
      cases hd : decode b.pending with
      | error x => simp [Block.settle, hb, hd]
      | ok i => rw [settle_true hb hd, settle_idle true (complete_busy _ _)]

/-- At an edge where the host writes nothing, the block takes its `Complete` or stays. -/
theorem step_writesNothing {s : State} (hs : s.Inv) (hw : s.nextEdge.WritesNothing) :
    ∃ t, step s = .next t ∧ t.block = s.block.settle s.nextEdge.complete ∧
      t.edges = s.edges.tail := by
  refine ⟨_, (step_legal hs.1).trans (clockEdge_settle (s := s.advance) hs hw.1), ?_, ?_⟩
  · rw [portCycle_writesNothing hw]
    rfl
  · rw [portCycle_edges]
    rfl

theorem quiet_writesNothing : Edge.quiet.WritesNothing := ⟨rfl, fun _ _ h => by cases h⟩

/-- Whatever the placement of `Complete` on edges where the host writes nothing, one step past their
end the block is as if it had been taken at once: the quiet edge there takes it at the latest. -/
theorem run_writesNothing {es : List Edge} {s : State} (hs : s.Inv) (hes : s.edges = es)
    (hw : ∀ e ∈ es, e.WritesNothing) :
    ∃ t, Host.Core.run core (es.length + 1) s = .next t ∧ t.block = s.block.settle true ∧
      t.edges = [] := by
  induction es generalizing s with
  | nil =>
    have hnext : s.nextEdge = Edge.quiet := by simp [State.nextEdge, hes]
    obtain ⟨t, hstep, hblock, hedges⟩ := step_writesNothing hs (hnext ▸ quiet_writesNothing)
    rw [hnext] at hblock
    exact ⟨t, run_of_step hstep, hblock, by simpa [hes] using hedges⟩
  | cons e es ih =>
    have hnext : s.nextEdge = e := by simp [State.nextEdge, hes]
    obtain ⟨he, hrest⟩ := List.forall_mem_cons.1 hw
    obtain ⟨u, hstep, hblock, hedges⟩ := step_writesNothing hs (hnext ▸ he)
    obtain ⟨t, hrun, ht, hend⟩ := ih (step_keeps_inv hs hstep) (by simpa [hes] using hedges) hrest
    exact ⟨t, (run_of_step hstep).trans hrun, by rw [ht, hblock, settle_settle_true], hend⟩

/-- At an edge that issues a command in phase IDLE the block accepts it (R40). -/
theorem step_of_issues {s : State} {i : Instr} (hs : s.Launch) (hi : s.nextEdge.Issues i) :
    step s = .next { s.advance with block := s.block.accept (encode i) } := by
  obtain ⟨hwf, hidle⟩ := hs
  rw [step_of_not_complete hwf.1 (rst_of_event hi) (.inr hidle), portCycle_write hi,
    advance_block, portWrite_command hidle]

/-- Settles O53: the accept puts the command in flight, and from there every wait without a write
leads to the block that its `Complete`, taken at once, leaves. -/
theorem placementOfCompleteDoesNotMatter : Obligations.PlacementOfCompleteDoesNotMatter := by
  intro s i hs
  refine ⟨_, exec_eq i _, fun e es hiss hw => ?_⟩
  have hstep := step_of_issues (s := { s with edges := e :: es }) hs hiss
  have hinv := step_keeps_inv (s := { s with edges := e :: es }) hs.1 hstep
  obtain ⟨t, hrun, hblock, hedges⟩ := run_writesNothing hinv rfl hw
  refine ⟨t, (run_of_step hstep).trans hrun, hblock.trans ?_, hedges⟩
  exact settle_true rfl (decode_encode i)

end Sys2Proof.Machine
